-- ==== Sys2Proof/Word.lean ====
section
/-!
DEFINITION. The words of LSBSTEG: a bit, a payload byte, a pixel word, a memory index and a command descriptor, with the
widths of 00_scope.md R5. Everything is unsigned (R9); bit 0 is the least significant bit (R8).
-/

namespace Sys2Proof

/-- One bit. -/
abbrev Bit := BitVec 1

/-- A byte of the payload, of the output or of one colour channel (`CHW`, R5). -/
abbrev Byte := BitVec 8

/-- A pixel word, four channels of 8 bits (`PIXW`, R5, R61). -/
abbrev Pixel := BitVec 32

/-- A host's element index (`IDXW`, R5). -/
abbrev Index := BitVec 32

/-- A command descriptor (`CMDW`, R5, R90). -/
abbrev Descriptor := BitVec 96

end Sys2Proof
end

