-- ==== Sys2Proof/Syntax.lean ====
section
/-!
DEFINITION. The two commands of LSBSTEG, one constructor per row of spec/opcode_table.json (30_encoding.md R91, R93).
-/

namespace Sys2Proof

/-- A command with its operands, each at the width of its descriptor field (R91): the designated channel `ch` (0 R, 1 G,
2 B; 3 is reserved and refused by `Instr.wf`), the source bank `sel`, the grid width `w` and height `h` in pixels, and `n`. -/
inductive Instr where
  /-- `ENC ch, sel, W, H, N` (R130): `n` is the payload length in bytes. -/
  | enc (ch : BitVec 2) (sel : Bit) (w h : BitVec 16) (n : BitVec 32)
  /-- `DEC ch, sel, W, H, N` (R150): `n` is the bit count. -/
  | dec (ch : BitVec 2) (sel : Bit) (w h : BitVec 16) (n : BitVec 32)
deriving DecidableEq, Repr

end Sys2Proof
end

