-- ==== Sys2Proof/WellFormed.lean ====
section
/-!
DEFINITION. Which commands are well formed: the designated channel is not the reserved value 3 (30_encoding.md R94). Every
value of `SEL`, `W`, `H`, `N` is legal (R94), `OP` and `RSV` are not operands.
-/

namespace Sys2Proof

/-- `CH != 3` (R94). -/
def Instr.wf : Instr → Bool
  | .enc ch _ _ _ _ => ch != 3
  | .dec ch _ _ _ _ => ch != 3

end Sys2Proof
end

