-- ==== Sys2Proof/Decode.lean ====
section
/-!
DEFINITION. The decoder of 96-bit command descriptors (30_encoding.md R90 to R96), total, refusing by name, and after it the
encoder (R97) and the listing form (R97).
-/

namespace Sys2Proof

/-- Why a descriptor is illegal (R94). All three are reported by `ISSUE` as code 3; the code does not say which (R96). -/
inductive DecodeError where
  /-- `RSV = d[31:11]` is not 0. -/
  | reservedBits
  /-- `CH = 3`. -/
  | reservedChannel
  /-- `OP` is neither `0x01` nor `0x02`. -/
  | reservedOpcode
deriving DecidableEq, Repr

/-! ### Fields of format D96 (R91) -/

/-- `OP = d[7:0]`. -/
def fieldOp (d : Descriptor) : BitVec 8 := d.extractLsb' 0 8

/-- `CH = d[9:8]`. -/
def fieldCh (d : Descriptor) : BitVec 2 := d.extractLsb' 8 2

/-- `SEL = d[10]`. -/
def fieldSel (d : Descriptor) : Bit := d.extractLsb' 10 1

/-- `RSV = d[31:11]`. -/
def fieldRsv (d : Descriptor) : BitVec 21 := d.extractLsb' 11 21

/-- `W = d[47:32]`. -/
def fieldW (d : Descriptor) : BitVec 16 := d.extractLsb' 32 16

/-- `H = d[63:48]`. -/
def fieldH (d : Descriptor) : BitVec 16 := d.extractLsb' 48 16

/-- `N = d[95:64]`. -/
def fieldN (d : Descriptor) : BitVec 32 := d.extractLsb' 64 32

/-- The opcode of `ENC` (R93). -/
def opEnc : BitVec 8 := 0x01

/-- The opcode of `DEC` (R93). -/
def opDec : BitVec 8 := 0x02

/-- `legal(d)` (R94). -/
def legal (d : Descriptor) : Bool :=
  (fieldOp d == opEnc || fieldOp d == opDec) && fieldRsv d == 0 && fieldCh d != 3

/-- The decoding procedure (R96). -/
def decode (d : Descriptor) : Except DecodeError Instr :=
  if fieldRsv d ≠ 0 then .error .reservedBits
  else if fieldCh d = 3 then .error .reservedChannel
  else if fieldOp d = opEnc then .ok (.enc (fieldCh d) (fieldSel d) (fieldW d) (fieldH d) (fieldN d))
  else if fieldOp d = opDec then .ok (.dec (fieldCh d) (fieldSel d) (fieldW d) (fieldH d) (fieldN d))
  else .error .reservedOpcode

/-- The descriptor as three 32-bit words `w0 = d[31:0]`, `w1 = d[63:32]`, `w2 = d[95:64]`, printed `w2 w1 w0` (R90). -/
def ofWords (w0 w1 w2 : BitVec 32) : Descriptor := w2 ++ w1 ++ w0

/-- The host's descriptor word: bit 0 is the least significant bit, every bit at `nbits` and above is 0. -/
def tableDescriptor (nbits w : Nat) : Descriptor := BitVec.ofNat 96 (w % 2 ^ nbits)

/-- The command the decoder reads from a descriptor of `nbits` bits given as a number; none where it refuses. -/
def decodeTableWord (nbits w : Nat) : Option Instr :=
  match decode (tableDescriptor nbits w) with
  | .ok i => some i
  | .error _ => none

/-! ### Encoder -/

/-- The fields of format D96 laid out from the most significant, `RSV = 0` (R91). -/
def packFields (op : BitVec 8) (ch : BitVec 2) (sel : Bit) (w h : BitVec 16) (n : BitVec 32) : Descriptor :=
  n ++ h ++ w ++ (0 : BitVec 21) ++ sel ++ ch ++ op

/-- The descriptor of a command (R91, R93). -/
def encode : Instr → Descriptor
  | .enc ch sel w h n => packFields opEnc ch sel w h n
  | .dec ch sel w h n => packFields opDec ch sel w h n

/-! ### Listing form (R97) -/

/-- The letter of a designated channel (R97); 3 has none. -/
def channelLetter (ch : BitVec 2) : String :=
  if ch = 0 then "R" else if ch = 1 then "G" else if ch = 2 then "B" else "?"

/-- The operands of a listing line, in decimal. -/
def operandListing (ch : BitVec 2) (sel : Bit) (w h : BitVec 16) (n : BitVec 32) : String :=
  channelLetter ch ++ ", " ++ toString sel.toNat ++ ", " ++ toString w.toNat ++ ", " ++ toString h.toNat ++ ", "
    ++ toString n.toNat

/-- A command as a listing writes it (R97). -/
def listing : Instr → String
  | .enc ch sel w h n => "ENC " ++ operandListing ch sel w h n
  | .dec ch sel w h n => "DEC " ++ operandListing ch sel w h n

/-! ### A word of each constructor, written out from R91 (vectors I1 to I4 of 95_test_vectors.md) -/

/-- I1: `ENC R, 0, 4, 4, 1` is `0x000000010004000400000001`. -/
theorem decode_enc_word : decode 0x000000010004000400000001#96 = .ok (.enc 0 0 4 4 1) := by rfl

/-- I2: `DEC R, 1, 4, 4, 8` is `0x000000080004000400000402`. -/
theorem decode_dec_word : decode 0x000000080004000400000402#96 = .ok (.dec 0 1 4 4 8) := by rfl

/-- `listing` writes R97's first example. -/
theorem listing_enc_word : listing (.enc 0 0 4 4 1) = "ENC R, 0, 4, 4, 1" := by rfl

end Sys2Proof
end

