-- ==== Sys2Proof/Config.lean ====
section
/-!
DEFINITION. What an implementation fixes (the three OPEN capacities of 00_scope.md R5) and the free values: what a host
read returns for an element that nothing has written (20_memory.md R75, U2).
-/

namespace Sys2Proof

/-- The two byte memories (R60). -/
inductive ByteSpace where
  | pay   -- PAY, payload input of ENC
  | out   -- OUT, payload output of DEC
deriving DecidableEq, Repr

/-- The OPEN parameters `IMG_CAP`, `PAY_CAP`, `OUT_CAP` (R5, W1 to W3): how many elements each memory holds.
They are fixed for a block; the model carries them in State, where no step writes them. DESIGN CHOICE, safe: log entry 2. -/
structure Caps where
  imgCap : Nat
  payCap : Nat
  outCap : Nat
deriving DecidableEq, Repr

/-- The reference values of R5: `2^32` each. -/
def Caps.reference : Caps := { imgCap := 2 ^ 32, payCap := 2 ^ 32, outCap := 2 ^ 32 }

/-- The range R5 gives each parameter. -/
abbrev Caps.ok (c : Caps) : Prop :=
  (1 ≤ c.imgCap ∧ c.imgCap ≤ 2 ^ 32) ∧ (1 ≤ c.payCap ∧ c.payCap ≤ 2 ^ 32) ∧ (1 ≤ c.outCap ∧ c.outCap ≤ 2 ^ 32)

/-- FREE VALUE (R75, U2): the initial content of pixel `i` of image bank `b`, which a host read returns before any write.
Nothing is known of it; log entry 4. -/
opaque Config.initialPixel : Bit → Index → Pixel

/-- FREE VALUE (R75, U2): the initial content of byte `i` of `PAY` or `OUT`; log entry 4. -/
opaque Config.initialByte : ByteSpace → Index → Byte

end Sys2Proof
end

