-- ==== Sys2Proof/Machine/State.lean ====
section
/-!
DEFINITION. The state of LSBSTEG as plain data (10_state.md R20), what the host does at the ports (43_host_interface.md),
the reasons a step can stop, and the state after power-on (R35, R233).
-/

namespace Sys2Proof.Machine

/-- What the sequencer is doing (R21). The encoding as two bits is `Phase.toBits`; the value 3 does not exist (U6). -/
inductive Phase where
  | idle     -- IDLE: no command running
  | encRun   -- ENC_RUN
  | decRun   -- DEC_RUN
deriving DecidableEq, Repr

/-- The completion codes (R200); no other value is ever written (U6). The encoding is `Code.toBits`. -/
inductive Code where
  | ok
  | insufficientCapacity
  | insufficientPixels
  | illegalCommand
  | rangeError
deriving DecidableEq, Repr

/-- A memory of `w`-bit elements: (index, element) pairs, indices strictly rising, an index that is not listed is an element
nothing has written (R75). `Memory 8` is a list of `Host.Cell`. -/
abbrev Memory (w : Nat) := List (Nat × BitVec w)

/-- One move of the host (R180, R6). `pass` is no host step: the host presents nothing and the block has the turn. -/
inductive HostMove where
  | pass
  /-- `ISSUE(d)`, R181. -/
  | issue (d : Descriptor)
  /-- `RDSR(k)`, R184. -/
  | rdsr (k : Bit)
  /-- `HRD(IMG[b], i)`, R185. -/
  | hrdPixel (b : Bit) (i : Index)
  /-- `HRD(PAY, i)` or `HRD(OUT, i)`, R185. -/
  | hrdByte (m : ByteSpace) (i : Index)
  /-- `HWR(IMG[b], i, v)`, R185. -/
  | hwrPixel (b : Bit) (i : Index) (v : Pixel)
  /-- `HWR(PAY, i, v)` or `HWR(OUT, i, v)`, R185. -/
  | hwrByte (m : ByteSpace) (i : Index) (v : Byte)
  /-- `RESET`, R186. -/
  | reset
deriving DecidableEq, Repr

/-- What a host step returns to the host. -/
inductive Reply where
  /-- The word of `RDSR`. -/
  | status (v : BitVec 32)
  /-- The pixel word of `HRD` of an image bank. -/
  | pixel (v : Pixel)
  /-- The byte of `HRD` of `PAY` or `OUT`. -/
  | byte (v : Byte)
deriving DecidableEq, Repr

/-- The whole state (R20), then the model's own three fields. -/
structure State where
  phase    : Phase
  rCh      : BitVec 2
  rSel     : Bit
  rW       : BitVec 16
  rH       : BitVec 16
  rN       : BitVec 32
  x        : BitVec 16
  y        : BitVec 16
  byteIdx  : BitVec 32
  bitIdx   : BitVec 3
  acc      : Byte
  n        : BitVec 3
  bitsRead : BitVec 32
  outLen   : BitVec 32
  code     : Code
  len      : BitVec 32
  img0     : Memory 32
  img1     : Memory 32
  pay      : Memory 8
  out      : Memory 8
  /-- The OPEN capacities (R5); no step writes them. DESIGN CHOICE, safe: log entry 2. -/
  caps     : Caps
  /-- The host's coming moves, the one at its ports now first. DESIGN CHOICE, safe: log entry 1. -/
  host     : List HostMove
  /-- What `RDSR` and `HRD` have returned, newest first. DESIGN CHOICE, safe: log entry 3. -/
  replies  : List Reply
deriving DecidableEq, Repr

/-- Why the model stops. None of these is a condition of the block, whose conditions are completion codes (R200). -/
inductive Fault where
  /-- Raised by a pixel step of `ENC` or `DEC` that reads a pixel nothing has written (R75, U1: "a model stops with a model
  fault"). Safe: the spec gives such a read no value and forbids picking one. -/
  | unwrittenPixel (bank : Bit) (index : Nat)
  /-- Raised by the embed arm of the `ENC` pixel step when it reads a payload byte nothing has written (R75, U1). Safe. -/
  | unwrittenPayload (index : Nat)
  /-- Raised by a host access `HRD` or `HWR` at or above a capacity: the spec gives it no step (R67, R185; X6: `stuck`).
  A stuck state by name. Safe. -/
  | hostIndexOutOfRange (index : Nat)
  /-- Raised by a block access at or above a capacity. No reachable state makes one (R67); it stands for the elements that do
  not exist. Safe. -/
  | blockIndexOutOfRange (index : Nat)
deriving DecidableEq, Repr

/-- Why an instruction has no meaning. -/
inductive Refusal where
  /-- An instruction without a meaning yet; no arm of `exec` answers it. Safe. -/
  | notModelled (mnemonic : String)
deriving DecidableEq, Repr

/-- What every step answers. -/
abbrev Answer := Host.Outcome State Fault Refusal

/-- The state at power-on, which is the state after `RESET` with nothing written yet (R35, R233, R75): every register 0, no
memory element written. Nothing is presented by the host; the capacities are the reference values of R5. -/
def State.reset : State where
  phase := .idle
  rCh := 0
  rSel := 0
  rW := 0
  rH := 0
  rN := 0
  x := 0
  y := 0
  byteIdx := 0
  bitIdx := 0
  acc := 0
  n := 0
  bitsRead := 0
  outLen := 0
  code := .ok
  len := 0
  img0 := []
  img1 := []
  pay := []
  out := []
  caps := Caps.reference
  host := []
  replies := []

end Sys2Proof.Machine
end

