-- ==== Sys2Proof/Machine/Flags.lean ====
section
/-!
DEFINITION. The block's only flags, `code` and `len`, and how `phase`, `code` and `len` read as the status registers and the idle
output (10_state.md R21, R26; 43_host_interface.md R184, R187).
-/

namespace Sys2Proof.Machine

/-- The encoding of `phase` (R21). -/
def Phase.toBits : Phase → BitVec 2
  | .idle => 0
  | .encRun => 1
  | .decRun => 2

/-- The encoding of `code` (R200). -/
def Code.toBits : Code → BitVec 8
  | .ok => 0
  | .insufficientCapacity => 1
  | .insufficientPixels => 2
  | .illegalCommand => 3
  | .rangeError => 4

/-- `SR0 = (code << 8) | phase` (R26, R184): `PHASE` in [1:0], `CODE` in [15:8], every other bit 0. -/
def statusWord0 (s : State) : BitVec 32 := (s.code.toBits.setWidth 32 <<< 8) ||| s.phase.toBits.setWidth 32

/-- `SR1 = len` (R26, R184). -/
def statusWord1 (s : State) : BitVec 32 := s.len

/-- The word `RDSR(k)` returns (R184). -/
def statusWord (s : State) (k : Bit) : BitVec 32 := if k = 0 then statusWord0 s else statusWord1 s

/-- The `idle` output: 1 exactly when `phase = IDLE` (R187). -/
def idleOutput (s : State) : Bit := if s.phase = .idle then 1 else 0

/-- How many payload bits an `ENC` has embedded: `8 * byte_idx + bit_idx`, exact (R136, R24). -/
def bitsEmbedded (s : State) : Nat := 8 * s.byteIdx.toNat + s.bitIdx.toNat

end Sys2Proof.Machine
end

