-- ==== Sys2Proof/Machine/Operands.lean ====
section
/-!
DEFINITION. The operand forms: the bit utilities (40_bit_utilities.md R120 to R124), the traversal cursor (41_encoder.md R132 to
R134) and the size check of a command's operands (43_host_interface.md R182).
-/

namespace Sys2Proof.Machine

/-! ### Bit utilities -/

/-- `bitAt(b, k) = (b >> (7 - k)) & 1` (R120): index 0 is the most significant bit. -/
def bitAt (b : BitVec 8) (k : BitVec 3) : BitVec 1 := (b >>> (7 - k.toNat)).setWidth 1

/-- `lsb(b) = b & 1` (R121). -/
def lsb (b : BitVec 8) : BitVec 1 := b.setWidth 1

/-- `setLsb(b, v) = (b & 0xFE) | v` (R122). -/
def setLsb (b : BitVec 8) (v : BitVec 1) : BitVec 8 := (b &&& 0xFE) ||| v.setWidth 8

/-- `chan(p, c) = (p >> (8 * c)) & 0xFF` (R123). -/
def chan (p : BitVec 32) (c : BitVec 2) : BitVec 8 := (p >>> (8 * c.toNat)).setWidth 8

/-- `withChan(p, c, v) = (p & ~(0xFF << (8 * c))) | (v << (8 * c))` (R124). -/
def withChan (p : BitVec 32) (c : BitVec 2) (v : BitVec 8) : BitVec 32 :=
  (p &&& ~~~((0xFF : BitVec 32) <<< (8 * c.toNat))) ||| (v.setWidth 32 <<< (8 * c.toNat))

/-- The output pixel of the embed arm (R135): `p` with the low bit of channel `c` replaced by `b`. -/
def embed (p : BitVec 32) (c : BitVec 2) (b : BitVec 1) : BitVec 32 := withChan p c (setLsb (chan p c) b)

/-- The bit a `DEC` pixel step takes from a pixel (R153). -/
def hiddenBit (p : BitVec 32) (c : BitVec 2) : BitVec 1 := lsb (chan p c)

/-- The accumulator after the bit `b` is appended on the right (R153): `trunc_8((acc << 1) | b)`. -/
def shiftIn (acc : BitVec 8) (b : BitVec 1) : BitVec 8 := (acc <<< 1) ||| b.setWidth 8

/-- The final partial byte (R154): `n` pending bits right-padded with `8 - n` zero bits. -/
def padded (acc : BitVec 8) (n : BitVec 3) : BitVec 8 := acc <<< (8 - n.toNat)

/-! ### Sizes -/

/-- `npix(W, H) = W * H` (R11), exact. -/
def npix (w h : BitVec 16) : Nat := w.toNat * h.toNat

/-- How many payload bytes an `ENC` reads: `min(N, ceil(P / 8))` (R182). -/
def payloadNeed (w h : BitVec 16) (n : BitVec 32) : Nat := min n.toNat ((npix w h + 7) / 8)

/-- How many output bytes a `DEC` may write: `ceil(min(N, P) / 8)` (R182). -/
def outputNeed (w h : BitVec 16) (n : BitVec 32) : Nat := (min n.toNat (npix w h) + 7) / 8

/-- `admissible` for `OP = 0x01` (R182). -/
def encAdmissible (w h : BitVec 16) (n : BitVec 32) (c : Caps) : Bool :=
  decide (npix w h ≤ c.imgCap) && decide (payloadNeed w h n ≤ c.payCap)

/-- `admissible` for `OP = 0x02` (R182). -/
def decAdmissible (w h : BitVec 16) (n : BitVec 32) (c : Caps) : Bool :=
  decide (npix w h ≤ c.imgCap) && decide (outputNeed w h n ≤ c.outCap)

/-! ### The traversal cursor -/

/-- `idx(x, y) = y * r_w + x` (R132, R63). -/
def idx (s : State) : Nat := s.y.toNat * s.rW.toNat + s.x.toNat

/-- `exhausted(x, y)`: `r_w == 0` or `y >= r_h` (R133). -/
def exhausted (s : State) : Bool := s.rW == 0 || decide (s.rH.toNat ≤ s.y.toNat)

/-- There is a next pixel in the current row: `x + 1 < r_w`, over the naturals (R134, R9). -/
def rowGoesOn (s : State) : Bool := decide (s.x.toNat + 1 < s.rW.toNat)

/-- `advance`: the next column, or column 0 of the next row (R134). -/
def advance (s : State) : State :=
  { s with
    x := if rowGoesOn s then s.x + 1 else 0
    y := if rowGoesOn s then s.y else s.y + 1 }

end Sys2Proof.Machine
end

