-- ==== Sys2Proof/Machine/Ops.lean ====
section
/-!
DEFINITION. The named operations over memories and registers. LSBSTEG has no trap entry and no return (60_exceptions.md R208, R209):
a condition is a completion code, recorded by `complete` when a command ends (00_scope.md R10) and by `refuse` when `ISSUE` turns a
command away (43_host_interface.md R181). These two are the shared operations an exception is here.
-/

namespace Sys2Proof.Machine

/-! ### One memory -/

/-- The element at index `i`, or none where nothing has written it (R75). -/
def Memory.read {w : Nat} : Memory w → Nat → Option (BitVec w)
  | [], _ => none
  | c :: m, i => if c.1 = i then some c.2 else Memory.read m i

/-- The memory with element `i` set to `v` (R65: that element and nothing else). -/
def Memory.write {w : Nat} : Memory w → Nat → BitVec w → Memory w
  | [], i, v => [(i, v)]
  | c :: m, i, v =>
    if c.1 < i then c :: Memory.write m i v
    else if c.1 = i then (i, v) :: m
    else (i, v) :: c :: m

/-- The canonical form: indices strictly rising. -/
abbrev Memory.wf {w : Nat} (m : Memory w) : Prop := m.Pairwise fun a b => a.1 < b.1

/-- Every listed index exists: it is below the capacity (R60). -/
abbrev Memory.below {w : Nat} (cap : Nat) (m : Memory w) : Prop := ∀ c ∈ m, c.1 < cap

/-- The byte view of an image bank (R62): byte `4i + c` is channel `c` of pixel `i`. -/
def Memory.byteView (m : Memory 32) (j : Nat) : Option Byte :=
  (Memory.read m (j / 4)).map fun p => chan p (BitVec.ofNat 2 (j % 4))

/-! ### The four memories of a state -/

/-- `IMG[b]` (R10): `IMG0` when `b = 0`, `IMG1` when `b = 1`. -/
def State.bank (s : State) (b : Bit) : Memory 32 := if b = 0 then s.img0 else s.img1

/-- The state with `IMG[b]` replaced. -/
def State.setBank (s : State) (b : Bit) (m : Memory 32) : State :=
  { s with
    img0 := if b = 0 then m else s.img0
    img1 := if b = 0 then s.img1 else m }

/-- `PAY` or `OUT`. -/
def State.bytes (s : State) : ByteSpace → Memory 8
  | .pay => s.pay
  | .out => s.out

/-- The state with `PAY` replaced. -/
def State.setPay (s : State) (m : Memory 8) : State := { s with pay := m }

/-- The state with `OUT` replaced. -/
def State.setOut (s : State) (m : Memory 8) : State := { s with out := m }

/-- The state with `PAY` or `OUT` replaced. -/
def State.setBytes (s : State) (b : ByteSpace) (m : Memory 8) : State :=
  match b with
  | .pay => s.setPay m
  | .out => s.setOut m

/-- How many elements `PAY` or `OUT` holds (R60). -/
def byteCap (s : State) : ByteSpace → Nat
  | .pay => s.caps.payCap
  | .out => s.caps.outCap

/-! ### The block's accesses (R65); each stops the model where the element does not exist or holds no value -/

/-- `MemRead(IMG[b], i, 4)`. -/
def readPixel (s : State) (b : Bit) (i : Nat) : Except Fault Pixel :=
  if i < s.caps.imgCap then
    match Memory.read (s.bank b) i with
    | some p => .ok p
    | none => .error (.unwrittenPixel b i)
  else .error (.blockIndexOutOfRange i)

/-- `MemWrite(IMG[b], i, 4, v)`. -/
def writePixel (s : State) (b : Bit) (i : Nat) (v : Pixel) : Except Fault State :=
  if i < s.caps.imgCap then .ok (s.setBank b (Memory.write (s.bank b) i v))
  else .error (.blockIndexOutOfRange i)

/-- `MemRead(PAY, j, 1)`. -/
def readPayload (s : State) (j : Nat) : Except Fault Byte :=
  if j < s.caps.payCap then
    match Memory.read s.pay j with
    | some b => .ok b
    | none => .error (.unwrittenPayload j)
  else .error (.blockIndexOutOfRange j)

/-- `MemWrite(OUT, j, 1, v)`. -/
def writeOutput (s : State) (j : Nat) (v : Byte) : Except Fault State :=
  if j < s.caps.outCap then .ok (s.setOut (Memory.write s.out j v))
  else .error (.blockIndexOutOfRange j)

/-! ### Starting, ending and refusing a command -/

/-- The accepting arm of `ISSUE` (R181; restated in R131 and R151): the operands are latched, the eight working registers, `code`
and `len` are 0, and the command runs. -/
def accept (ph : Phase) (ch : BitVec 2) (sel : Bit) (w h : BitVec 16) (n : BitVec 32) (s : State) : State :=
  { s with
    rCh := ch, rSel := sel, rW := w, rH := h, rN := n
    x := 0, y := 0
    byteIdx := 0, bitIdx := 0
    acc := 0, n := 0, bitsRead := 0, outLen := 0
    code := .ok, len := 0
    phase := ph }

/-- A refusing arm of `ISSUE` (R181): the code is recorded with length 0 and nothing else changes. -/
def refuse (c : Code) (s : State) : State := { s with code := c, len := 0 }

/-- `complete(c, l)`: the only way a command ends (R10). -/
def complete (c : Code) (l : BitVec 32) (s : State) : State := { s with code := c, len := l, phase := .idle }

/-- `ISSUE` of a command whose operands are known (R181): `IllegalCommand` is tested before `RangeError` (R207). -/
def start (ph : Phase) (fits : Bool) (ch : BitVec 2) (sel : Bit) (w h : BitVec 16) (n : BitVec 32) (s : State) : State :=
  if ch = 3 then refuse .illegalCommand s
  else if fits then accept ph ch sel w h n s
  else refuse .rangeError s

/-! ### From the block's accesses to the outcome of a step -/

/-- A step that may stop with a model fault. -/
def settle : Except Fault State → Answer
  | .ok s => .next s
  | .error r => .fault r

end Sys2Proof.Machine
end

