-- ==== Sys2Proof/Machine/Decoder.lean ====
section
/-!
DEFINITION. The decoder's block steps (42_decoder.md R152 to R156).
-/

namespace Sys2Proof.Machine

/-- The bit count is reached: `bits_read == r_n` (R152). -/
def countReached (s : State) : Bool := s.bitsRead == s.rN

/-- One more byte is in `OUT` (R153, R154). -/
def countByte (s : State) : State := { s with outLen := s.outLen + 1 }

/-- The eighth bit of a byte is read: the accumulator is emptied (R153). -/
def emptyAcc (s : State) : State := { s with bitsRead := s.bitsRead + 1, acc := 0, n := 0 }

/-- The eighth bit of a byte: the whole byte `a` goes to `OUT` (R153). -/
def decEmit (a : Byte) (s : State) : Except Fault State := do
  let t ← writeOutput s s.outLen.toNat a
  return countByte (emptyAcc t)

/-- A bit that does not fill a byte: the accumulator holds `a` (R153). -/
def decGather (a : Byte) (s : State) : State := { s with bitsRead := s.bitsRead + 1, acc := a, n := s.n + 1 }

/-- The `DEC` pixel step (R153). -/
def decPixel (s : State) : Except Fault State := do
  let p ← readPixel s s.rSel (idx s)
  if s.n = 7 then
    let t ← decEmit (shiftIn s.acc (hiddenBit p s.rCh)) s
    return advance t
  else
    return advance (decGather (shiftIn s.acc (hiddenBit p s.rCh)) s)

/-- The `DEC` normal completion step (R154): a partial byte is padded and appended; `len` counts it. -/
def decComplete (s : State) : Except Fault State :=
  if s.n = 0 then .ok (complete .ok s.outLen s)
  else do
    let t ← writeOutput s s.outLen.toNat (padded s.acc s.n)
    return complete .ok (t.outLen + 1) (countByte t)

/-- The `DEC` overrun completion step (R155): the pending bits are dropped. -/
def decOverrun (s : State) : State := complete .insufficientPixels s.outLen s

/-- The one `DEC` step enabled while `phase = DEC_RUN` (R152): the bit count is tested first, so `N = 0` reads no pixel (R156)
and `N = P` completes normally. -/
def decStep (s : State) : Except Fault State :=
  if countReached s then decComplete s
  else if exhausted s then .ok (decOverrun s)
  else decPixel s

end Sys2Proof.Machine
end

