-- ==== Sys2Proof/Machine/Encoder.lean ====
section
/-!
DEFINITION. The encoder's block steps (41_encoder.md R135, R136).
-/

namespace Sys2Proof.Machine

/-- The encoder's counters after one more payload bit (R135): `bit_idx` goes 0 to 7 and back, `byte_idx` goes up at the wrap. -/
def countBit (s : State) : State :=
  { s with
    bitIdx := if s.bitIdx = 7 then 0 else s.bitIdx + 1
    byteIdx := if s.bitIdx = 7 then s.byteIdx + 1 else s.byteIdx }

/-- Payload remains: `byte_idx < r_n` (R135). -/
def payloadRemains (s : State) : Bool := decide (s.byteIdx.toNat < s.rN.toNat)

/-- The embed arm of the pixel step, the source pixel `p` being read (R135). -/
def encEmbed (p : Pixel) (s : State) : Except Fault State := do
  let pb ← readPayload s s.byteIdx.toNat
  let t ← writePixel s (1 - s.rSel) (idx s) (embed p s.rCh (bitAt pb s.bitIdx))
  return advance (countBit t)

/-- The copy arm of the pixel step (R135). -/
def encCopy (p : Pixel) (s : State) : Except Fault State := do
  let t ← writePixel s (1 - s.rSel) (idx s) p
  return advance t

/-- The `ENC` pixel step (R135); the source pixel is read first, then the payload byte, then the pixel is written (R70). -/
def encPixel (s : State) : Except Fault State := do
  let p ← readPixel s s.rSel (idx s)
  if payloadRemains s then encEmbed p s else encCopy p s

/-- The `ENC` completion step (R136): code 1 exactly when some payload bits were not written. -/
def encComplete (s : State) : State :=
  complete (if payloadRemains s then .insufficientCapacity else .ok) (BitVec.ofNat 32 (bitsEmbedded s)) s

/-- The one `ENC` step enabled while `phase = ENC_RUN`. -/
def encStep (s : State) : Except Fault State :=
  if exhausted s then .ok (encComplete s) else encPixel s

end Sys2Proof.Machine
end

