-- ==== Sys2Proof/Machine/Commands.lean ====
section
/-!
DEFINITION. The meanings of the two commands. A command is not one step of this hardware (00_scope.md R6): it starts in one step
(`ISSUE`, 43_host_interface.md R181) and then takes one block step at a time until its completion step. A meaning is therefore what
the command does in the step at hand: in `IDLE` its start, and while a command runs the one block step that is enabled. A command
presented while another runs is held (R183): the step is the running command's.
-/

namespace Sys2Proof.Machine

/-- The one block step enabled in a state (R6, R152): none in `IDLE`. -/
def blockStep (s : State) : Answer :=
  match s.phase with
  | .idle => .next s
  | .encRun => settle (encStep s)
  | .decRun => settle (decStep s)

/-- `ENC ch, sel, W, H, N` (R130): started in `IDLE` (R131, R181), then pixel steps (R135) and the completion step (R136). -/
def execEnc (ch : BitVec 2) (sel : Bit) (w h : BitVec 16) (n : BitVec 32) (s : State) : Answer :=
  if s.phase = .idle then .next (start .encRun (encAdmissible w h n s.caps) ch sel w h n s)
  else blockStep s

/-- `DEC ch, sel, W, H, N` (R150): started in `IDLE` (R151, R181), then pixel steps (R153) and a completion step (R154, R155). -/
def execDec (ch : BitVec 2) (sel : Bit) (w h : BitVec 16) (n : BitVec 32) (s : State) : Answer :=
  if s.phase = .idle then .next (start .decRun (decAdmissible w h n s.caps) ch sel w h n s)
  else blockStep s

end Sys2Proof.Machine
end

