-- ==== Sys2Proof/Machine/Dispatch.lean ====
section
/-!
DEFINITION. exec: one arm per constructor of Instr.
-/

namespace Sys2Proof.Machine

def exec (i : Instr) (s : State) : Host.Outcome State Fault Refusal :=
  match i with
  | .enc ch sel w h n => Sys2Proof.Machine.execEnc ch sel w h n s
  | .dec ch sel w h n => Sys2Proof.Machine.execDec ch sel w h n s

end Sys2Proof.Machine
end

