-- ==== Sys2Proof/Machine/HostPort.lean ====
section
/-!
DEFINITION. The host operations that are no commands: `RDSR` (43_host_interface.md R184), `HRD` and `HWR` (R185), `RESET` (R186), and
the listing shorthand `FILL` (30_encoding.md R98).
-/

namespace Sys2Proof.Machine

/-- The state with the host's coming moves replaced. -/
def setHost (hs : List HostMove) (s : State) : State := { s with host := hs }

/-- The state with one more word or element returned to the host. -/
def reply (r : Reply) (s : State) : State := { s with replies := r :: s.replies }

/-- `RDSR(k)` (R184): returns a status word and changes nothing of the block. -/
def hostRdsr (k : Bit) (s : State) : State := reply (.status (statusWord s k)) s

/-- What a host read of a pixel returns: the latest write, or the element's initial content, of which nothing is known (R70, R75). -/
def hostPixel (s : State) (b : Bit) (i : Index) : Pixel :=
  (Memory.read (s.bank b) i.toNat).getD (Config.initialPixel b i)

/-- What a host read of a byte returns (R70, R75). -/
def hostByte (s : State) (m : ByteSpace) (i : Index) : Byte :=
  (Memory.read (s.bytes m) i.toNat).getD (Config.initialByte m i)

/-- `HRD(IMG[b], i)` (R185); at or above the capacity there is no step (X6). -/
def hostReadPixel (b : Bit) (i : Index) (s : State) : Except Fault State :=
  if i.toNat < s.caps.imgCap then .ok (reply (.pixel (hostPixel s b i)) s)
  else .error (.hostIndexOutOfRange i.toNat)

/-- `HRD(PAY, i)` or `HRD(OUT, i)` (R185). -/
def hostReadByte (m : ByteSpace) (i : Index) (s : State) : Except Fault State :=
  if i.toNat < byteCap s m then .ok (reply (.byte (hostByte s m i)) s)
  else .error (.hostIndexOutOfRange i.toNat)

/-- `HWR(IMG[b], i, v)` (R185): that one element changes. -/
def hostWritePixel (b : Bit) (i : Index) (v : Pixel) (s : State) : Except Fault State :=
  if i.toNat < s.caps.imgCap then .ok (s.setBank b (Memory.write (s.bank b) i.toNat v))
  else .error (.hostIndexOutOfRange i.toNat)

/-- `HWR(PAY, i, v)` or `HWR(OUT, i, v)` (R185). -/
def hostWriteByte (m : ByteSpace) (i : Index) (v : Byte) (s : State) : Except Fault State :=
  if i.toNat < byteCap s m then .ok (s.setBytes m (Memory.write (s.bytes m) i.toNat v))
  else .error (.hostIndexOutOfRange i.toNat)

/-- `RESET` (R186, R231): every register takes its value of R35; no memory element changes. -/
def resetRegisters (s : State) : State :=
  { s with
    phase := .idle
    rCh := 0, rSel := 0, rW := 0, rH := 0, rN := 0
    x := 0, y := 0
    byteIdx := 0, bitIdx := 0
    acc := 0, n := 0, bitsRead := 0, outLen := 0
    code := .ok, len := 0 }

/-- `FILL IMG[b], lo, hi, v` (R98): the same write for every index from `lo` to `hi`, ascending. -/
def fillPixels (b : Bit) (lo hi : Nat) (v : Pixel) : List HostMove :=
  (List.range' lo (hi + 1 - lo)).map fun i => .hwrPixel b (BitVec.ofNat 32 i) v

/-- `FILL PAY, lo, hi, v` or `FILL OUT, lo, hi, v` (R98). -/
def fillBytes (m : ByteSpace) (lo hi : Nat) (v : Byte) : List HostMove :=
  (List.range' lo (hi + 1 - lo)).map fun i => .hwrByte m (BitVec.ofNat 32 i) v

end Sys2Proof.Machine
end

