-- ==== Sys2Proof/Machine/Sequencer.lean ====
section
/-!
DEFINITION. Who moves in a step: the host, whose move stands at the head of `host`, or the block, whose running command takes its
next block step (00_scope.md R6; 43_host_interface.md R180 to R187; 20_memory.md R69).
-/

namespace Sys2Proof.Machine

/-- The command that is running, read from `phase` and the latched operands (R22). -/
def running (s : State) : Option Instr :=
  match s.phase with
  | .idle => none
  | .encRun => some (.enc s.rCh s.rSel s.rW s.rH s.rN)
  | .decRun => some (.dec s.rCh s.rSel s.rW s.rH s.rN)

/-- The block's turn: the running command's next block step; in `IDLE` the block takes no step and nothing changes (R21, R231). -/
def blockTurn (s : State) : Answer :=
  match running s with
  | some i => exec i s
  | none => .next s

/-- `ISSUE(d)` in `IDLE` (R181): a descriptor that decodes is the command's start, any other is refused with code 3. -/
def issue (d : Descriptor) (s : State) : Answer :=
  match decode d with
  | .ok i => exec i s
  | .error _ => .next (refuse .illegalCommand s)

/-- What a host move does when it is taken. -/
def hostStep (m : HostMove) (s : State) : Answer :=
  match m with
  | .pass => blockTurn s
  | .issue d => issue d s
  | .rdsr k => .next (hostRdsr k s)
  | .hrdPixel b i => settle (hostReadPixel b i s)
  | .hrdByte sp i => settle (hostReadByte sp i s)
  | .hwrPixel b i v => settle (hostWritePixel b i v s)
  | .hwrByte sp i v => settle (hostWriteByte sp i v s)
  | .reset => .next (resetRegisters s)

/-- The moves that are enabled only in `IDLE` and held otherwise (R69, R183): `ISSUE`, `HRD`, `HWR`. -/
def heldWhileBusy : HostMove → Bool
  | .issue _ | .hrdPixel _ _ | .hrdByte _ _ | .hwrPixel _ _ _ | .hwrByte _ _ _ => true
  | .pass | .rdsr _ | .reset => false

/-- One step. A held move stays at the host's ports while the block steps; any other is taken. -/
def turn (s : State) : Answer :=
  match s.host with
  | [] => blockTurn s
  | m :: rest =>
    if s.phase ≠ .idle ∧ heldWhileBusy m = true then blockTurn s
    else hostStep m (setHost rest s)

/-- `s` with the descriptor `d` at the command port and the block in `IDLE`, so that the next step is `ISSUE(d)`. -/
def present (d : Descriptor) (s : State) : State := { s with phase := .idle, host := .issue d :: s.host }

end Sys2Proof.Machine
end

