-- ==== Sys2Proof/Machine/Step.lean ====
section
/-!
DEFINITION. step, and how the host places a descriptor for it.
-/

namespace Sys2Proof.Machine

/-- One atomic step of the machine (00_scope.md R6). -/
def step (s : State) : Host.Outcome State Fault Refusal := turn s

/-- `s` with the descriptor of `nbits` bits `w` presented at the command port in `IDLE` (log entry 5). -/
def State.withFetchWord (s : State) (nbits w : Nat) : State := present (tableDescriptor nbits w) s

end Sys2Proof.Machine
end

