-- ==== Sys2Proof/Safety.lean ====
section
/-!
DEFINITION. What claims are stated in: runs, the invariants of 10_state.md R36, the host's duties before a command (70_reset_and_hazards.md
R234, R235), the closed forms of the results (41_encoder.md R137, 42_decoder.md R157) and the step counts (R238).
-/

namespace Sys2Proof.Machine

/-- `k` steps in a row, stopping at the first fault or refusal. -/
def runSteps : Nat → State → Answer
  | 0, s => .next s
  | k + 1, s =>
    match step s with
    | .next t => runSteps k t
    | .fault r => .fault r
    | .refused r => .refused r

/-! ### Invariants (R36) -/

/-- How many pixel steps the running command has taken: the index of the cursor's pixel, or all `P` (R36 item 3). -/
def pixelsDone (s : State) : Nat := if exhausted s then npix s.rW s.rH else idx s

/-- A memory is canonical and lists only elements that exist (R60). -/
abbrev MemoryOk {w : Nat} (cap : Nat) (m : Memory w) : Prop := Memory.wf m ∧ Memory.below cap m

/-- While a command runs (R36 items 2 and 3; R184 for the status registers). -/
structure RunningInv (s : State) : Prop where
  fits : npix s.rW s.rH ≤ s.caps.imgCap
  row : s.y.toNat ≤ s.rH.toNat
  column : exhausted s = false → s.x.toNat < s.rW.toNat
  code : s.code = .ok
  len : s.len = 0

/-- While `ENC` runs (R36 item 4). -/
structure EncInv (s : State) : Prop where
  byteIdx : s.byteIdx.toNat ≤ s.rN.toNat
  embedded : bitsEmbedded s = min (8 * s.rN.toNat) (pixelsDone s)
  fits : payloadNeed s.rW s.rH s.rN ≤ s.caps.payCap

/-- While `DEC` runs (R36 item 5). -/
structure DecInv (s : State) : Prop where
  bitsRead : s.bitsRead.toNat = pixelsDone s
  count : s.bitsRead.toNat ≤ s.rN.toNat
  pending : s.n.toNat = s.bitsRead.toNat % 8
  outLen : s.outLen.toNat = s.bitsRead.toNat / 8
  acc : s.acc.toNat < 2 ^ s.n.toNat
  fits : outputNeed s.rW s.rH s.rN ≤ s.caps.outCap

/-- The invariant of the machine (R36). Items 1 and 6 hold by the types of `phase` and `code`. -/
structure Inv (s : State) : Prop where
  caps : s.caps.ok
  img0 : MemoryOk s.caps.imgCap s.img0
  img1 : MemoryOk s.caps.imgCap s.img1
  pay : MemoryOk s.caps.payCap s.pay
  out : MemoryOk s.caps.outCap s.out
  channel : s.rCh ≠ 3
  running : s.phase ≠ .idle → RunningInv s
  encoding : s.phase = .encRun → EncInv s
  decoding : s.phase = .decRun → DecInv s

/-! ### What the host has written before a command (R234, R235) -/

/-- The first `m` pixels of bank `b` are written and are `S`. -/
abbrev PixelsAre (s : State) (b : Bit) (m : Nat) (S : Nat → Pixel) : Prop :=
  ∀ k < m, Memory.read (s.bank b) k = some (S k)

/-- The first `m` bytes of the payload memory are written and are `Y`. -/
abbrev PayloadIs (s : State) (m : Nat) (Y : Nat → Byte) : Prop :=
  ∀ j < m, Memory.read s.pay j = some (Y j)

/-! ### Closed forms -/

/-- Pixel `k` of the output image of `ENC` (R137): `S` the source image, `Y` the payload, `N` its length in bytes. -/
def encodedPixel (S : Nat → Pixel) (Y : Nat → Byte) (ch : BitVec 2) (N k : Nat) : Pixel :=
  if k < 8 * N then withChan (S k) ch (setLsb (chan (S k) ch) (bitAt (Y (k / 8)) (BitVec.ofNat 3 (k % 8)))) else S k

/-- `byteOf(j, m)` (R157): byte `j` of the output of `DEC`, `f k` the hidden bit of pixel `k`, bits at `m` and above counted 0. -/
def byteOf (f : Nat → Bit) (m j : Nat) : Byte :=
  BitVec.ofNat 8 ((List.range 8).map fun i => (if 8 * j + i < m then (f (8 * j + i)).toNat else 0) * 2 ^ (7 - i)).sum

/-! ### Step counts (R238) -/

/-- How many block steps the running command still takes. -/
def stepsLeft (s : State) : Nat :=
  match s.phase with
  | .idle => 0
  | .encRun => npix s.rW s.rH - pixelsDone s + 1
  | .decRun => min s.rN.toNat (npix s.rW s.rH) - s.bitsRead.toNat + 1

/-- The host makes no move in this step: it has none, or the one it presents is held (R69, R183). -/
abbrev HostWaits (s : State) : Prop := ∀ m ∈ s.host.head?, heldWhileBusy m = true

end Sys2Proof.Machine
end

