-- ==== Sys2Proof/Certificates/Slice0/Obligations.lean ====
section
/-!
DEFINITION. The statements for the provers, each from the rules of spec/ its docstring names. `P` is `npix W H = W * H`.
-/

open Sys2Proof Sys2Proof.Machine

/-! ## Encoding -/

/-- R93, R96 (vectors I1 to I9 of 95_test_vectors.md): words written out from the fields of R91 decode to the command they stand
for, and one word for each cause of illegality (R94) is refused. -/
def Obligations.OpcodeTableWordsDecode : Prop :=
  decode 0x000000010004000400000001#96 = .ok (.enc 0 0 4 4 1) ∧
  decode 0x000000080004000400000402#96 = .ok (.dec 0 1 4 4 8) ∧
  decode 0x000000020004000500000501#96 = .ok (.enc 1 1 5 4 2) ∧
  decode 0xFFFFFFFFFFFFFFFF00000202#96 = .ok (.dec 2 0 65535 65535 4294967295) ∧
  decode 0x000000010001000100000000#96 = .error .reservedOpcode ∧
  decode 0x000000010001000100000003#96 = .error .reservedOpcode ∧
  decode 0x000000010001000100000301#96 = .error .reservedChannel ∧
  decode 0x000000010001000100000801#96 = .error .reservedBits ∧
  decode 0x000000010001000180000002#96 = .error .reservedBits

/-- R96, R94: the decoding procedure, total on 96-bit values: `ENC`, `DEC` or illegal, fields taken from the bits R91 gives. -/
def Obligations.DecodeIsTheProcedure : Prop :=
  ∀ d : Descriptor,
    (d.extractLsb' 11 21 = 0 → d.extractLsb' 8 2 ≠ 3 → d.extractLsb' 0 8 = 0x01 →
      decode d = .ok (.enc (d.extractLsb' 8 2) (d.extractLsb' 10 1) (d.extractLsb' 32 16) (d.extractLsb' 48 16)
        (d.extractLsb' 64 32))) ∧
    (d.extractLsb' 11 21 = 0 → d.extractLsb' 8 2 ≠ 3 → d.extractLsb' 0 8 = 0x02 →
      decode d = .ok (.dec (d.extractLsb' 8 2) (d.extractLsb' 10 1) (d.extractLsb' 32 16) (d.extractLsb' 48 16)
        (d.extractLsb' 64 32))) ∧
    ((d.extractLsb' 11 21 ≠ 0 ∨ d.extractLsb' 8 2 = 3 ∨ (d.extractLsb' 0 8 ≠ 0x01 ∧ d.extractLsb' 0 8 ≠ 0x02)) →
      ∃ e, decode d = .error e)

/-- R91, R92, R96: decoding the descriptor of a well-formed command gives the command back, every operand at every value. -/
def Obligations.DecodeAfterEncode : Prop :=
  ∀ i : Instr, i.wf = true → decode (encode i) = .ok i

/-- R91, R96: where a descriptor decodes, it is the descriptor of the command it decodes to, and that command is well formed: no
two descriptors stand for one command, and no bit is ignored. -/
def Obligations.EncodeAfterDecode : Prop :=
  ∀ (d : Descriptor) (i : Instr), decode d = .ok i → encode i = d ∧ i.wf = true

/-- R97: `d = (N << 64) | (H << 48) | (W << 32) | (sel << 10) | (ch << 8) | OP`, over the naturals. -/
def Obligations.EncodeIsTheListingFormula : Prop :=
  ∀ (ch : BitVec 2) (sel : Bit) (w h : BitVec 16) (n : BitVec 32),
    (encode (.enc ch sel w h n)).toNat =
      (n.toNat <<< 64 ||| h.toNat <<< 48 ||| w.toNat <<< 32 ||| sel.toNat <<< 10 ||| ch.toNat <<< 8 ||| 0x01) ∧
    (encode (.dec ch sel w h n)).toNat =
      (n.toNat <<< 64 ||| h.toNat <<< 48 ||| w.toNat <<< 32 ||| sel.toNat <<< 10 ||| ch.toNat <<< 8 ||| 0x02)

/-! ## What a step runs -/

/-- R181, R6: in `IDLE`, when the descriptor at the command port decodes to `i`, the step is exec of `i`, the descriptor being
taken from the port. -/
def Obligations.StepRunsIssuedCommand : Prop :=
  ∀ (s : State) (d : Descriptor) (rest : List HostMove) (i : Instr),
    s.phase = .idle → s.host = .issue d :: rest → decode d = .ok i →
    step s = exec i { s with host := rest }

/-- R6, R22, R183: while a command runs, a step in which the host makes no move, or presents a held one, is exec of the command
that the latched operands name, and the host's moves stay as they are; a `pass` of the host is taken and gives the block the same
step (the list of moves and `pass` are the model's, log entry 1). -/
def Obligations.StepRunsRunningCommand : Prop :=
  ∀ (s : State) (i : Instr),
    ((s.phase = .encRun ∧ i = .enc s.rCh s.rSel s.rW s.rH s.rN) ∨
      (s.phase = .decRun ∧ i = .dec s.rCh s.rSel s.rW s.rH s.rN)) →
    (HostWaits s → step s = exec i s ∧ ∀ t, step s = .next t → t.host = s.host) ∧
    (∀ rest, s.host = .pass :: rest → step s = exec i { s with host := rest })

/-- The model's reading of a placed descriptor (log entry 5): the next step is exec of the command the host's word decodes to. -/
def Obligations.FetchWordIsRunNext : Prop :=
  ∀ (s : State) (nbits w : Nat) (i : Instr),
    decodeTableWord nbits w = some i → step (s.withFetchWord nbits w) = exec i { s with phase := .idle }

/-- R21, R231 with the model's choice of log entry 1: in `IDLE` with no host move, and in `IDLE` with a `pass`, nothing changes. -/
def Obligations.IdleBlockTakesNoStep : Prop :=
  ∀ s : State, s.phase = .idle →
    (s.host = [] → step s = .next s) ∧ (∀ rest, s.host = .pass :: rest → step s = .next { s with host := rest })

/-! ## Starting and refusing a command -/

/-- R131: the accepting arm of `ISSUE` for `ENC`, in `IDLE`, for a legal channel and sizes that fit the capacities (R182). -/
def Obligations.EncStartsWhenIssued : Prop :=
  ∀ (s : State) (ch : BitVec 2) (sel : Bit) (w h : BitVec 16) (n : BitVec 32),
    s.phase = .idle → ch ≠ 3 → w.toNat * h.toNat ≤ s.caps.imgCap →
    min n.toNat ((w.toNat * h.toNat + 7) / 8) ≤ s.caps.payCap →
    exec (.enc ch sel w h n) s = .next { s with
      rCh := ch, rSel := sel, rW := w, rH := h, rN := n
      x := 0, y := 0, byteIdx := 0, bitIdx := 0, acc := 0, n := 0, bitsRead := 0, outLen := 0
      code := .ok, len := 0, phase := .encRun }

/-- R151: the accepting arm of `ISSUE` for `DEC`. -/
def Obligations.DecStartsWhenIssued : Prop :=
  ∀ (s : State) (ch : BitVec 2) (sel : Bit) (w h : BitVec 16) (n : BitVec 32),
    s.phase = .idle → ch ≠ 3 → w.toNat * h.toNat ≤ s.caps.imgCap →
    (min n.toNat (w.toNat * h.toNat) + 7) / 8 ≤ s.caps.outCap →
    exec (.dec ch sel w h n) s = .next { s with
      rCh := ch, rSel := sel, rW := w, rH := h, rN := n
      x := 0, y := 0, byteIdx := 0, bitIdx := 0, acc := 0, n := 0, bitsRead := 0, outLen := 0
      code := .ok, len := 0, phase := .decRun }

/-- R203, R94: in `IDLE` a descriptor that is not legal is refused with code 3 and length 0; nothing else of the block changes. -/
def Obligations.IllegalDescriptorRefused : Prop :=
  ∀ (s : State) (d : Descriptor) (rest : List HostMove),
    s.phase = .idle → s.host = .issue d :: rest →
    ¬((d.extractLsb' 0 8 = 0x01 ∨ d.extractLsb' 0 8 = 0x02) ∧ d.extractLsb' 11 21 = 0 ∧ d.extractLsb' 8 2 ≠ 3) →
    step s = .next { s with host := rest, code := .illegalCommand, len := 0 }

/-- R95, R182, R204: a legal command whose sizes do not fit the capacities is refused with code 4 and length 0 and nothing else
changes; with the reference capacities every well-formed command is started. -/
def Obligations.OversizeCommandRefused : Prop :=
  (∀ (s : State) (ch : BitVec 2) (sel : Bit) (w h : BitVec 16) (n : BitVec 32), s.phase = .idle → ch ≠ 3 →
    (¬(w.toNat * h.toNat ≤ s.caps.imgCap ∧ min n.toNat ((w.toNat * h.toNat + 7) / 8) ≤ s.caps.payCap) →
      exec (.enc ch sel w h n) s = .next { s with code := .rangeError, len := 0 }) ∧
    (¬(w.toNat * h.toNat ≤ s.caps.imgCap ∧ (min n.toNat (w.toNat * h.toNat) + 7) / 8 ≤ s.caps.outCap) →
      exec (.dec ch sel w h n) s = .next { s with code := .rangeError, len := 0 })) ∧
  (∀ (s : State) (i : Instr), s.phase = .idle → i.wf = true → s.caps = Caps.reference →
    ∃ t, exec i s = .next t ∧ t.phase ≠ .idle ∧ t.code = .ok)

/-! ## The encoder's block steps -/

/-- R135: the `ENC` pixel step, both arms: the pixel written, the counters and the cursor, and that nothing else changes. The
invariant `Inv` (R36) rules out states no run reaches. -/
def Obligations.EncPixelStep : Prop :=
  ∀ (s : State) (p : Pixel), Inv s → s.phase = .encRun → s.rW ≠ 0 → s.y.toNat < s.rH.toNat →
    Memory.read (s.bank s.rSel) (s.y.toNat * s.rW.toNat + s.x.toNat) = some p →
    (∀ pb, s.byteIdx.toNat < s.rN.toNat → Memory.read s.pay s.byteIdx.toNat = some pb →
      ∃ t, exec (.enc s.rCh s.rSel s.rW s.rH s.rN) s = .next t ∧
        Memory.read (t.bank (1 - s.rSel)) (s.y.toNat * s.rW.toNat + s.x.toNat) =
          some (withChan p s.rCh (setLsb (chan p s.rCh) (bitAt pb s.bitIdx))) ∧
        (∀ k, k ≠ s.y.toNat * s.rW.toNat + s.x.toNat →
          Memory.read (t.bank (1 - s.rSel)) k = Memory.read (s.bank (1 - s.rSel)) k) ∧
        t.bank s.rSel = s.bank s.rSel ∧
        (if s.bitIdx = 7 then t.bitIdx = 0 ∧ t.byteIdx.toNat = s.byteIdx.toNat + 1
          else t.bitIdx.toNat = s.bitIdx.toNat + 1 ∧ t.byteIdx = s.byteIdx) ∧
        (if s.x.toNat + 1 < s.rW.toNat then t.x.toNat = s.x.toNat + 1 ∧ t.y = s.y
          else t.x = 0 ∧ t.y.toNat = s.y.toNat + 1) ∧
        t = { s with img0 := t.img0, img1 := t.img1, byteIdx := t.byteIdx, bitIdx := t.bitIdx, x := t.x, y := t.y }) ∧
    (s.rN.toNat ≤ s.byteIdx.toNat →
      ∃ t, exec (.enc s.rCh s.rSel s.rW s.rH s.rN) s = .next t ∧
        Memory.read (t.bank (1 - s.rSel)) (s.y.toNat * s.rW.toNat + s.x.toNat) = some p ∧
        (∀ k, k ≠ s.y.toNat * s.rW.toNat + s.x.toNat →
          Memory.read (t.bank (1 - s.rSel)) k = Memory.read (s.bank (1 - s.rSel)) k) ∧
        t.bank s.rSel = s.bank s.rSel ∧
        (if s.x.toNat + 1 < s.rW.toNat then t.x.toNat = s.x.toNat + 1 ∧ t.y = s.y
          else t.x = 0 ∧ t.y.toNat = s.y.toNat + 1) ∧
        t = { s with img0 := t.img0, img1 := t.img1, x := t.x, y := t.y })

/-- R136: the `ENC` completion step. `bits` equals `min(8 * r_n, P)`, and payload remains exactly when `P < 8 * r_n`. -/
def Obligations.EncCompletionStep : Prop :=
  ∀ s : State, Inv s → s.phase = .encRun → (s.rW = 0 ∨ s.rH.toNat ≤ s.y.toNat) →
    (s.byteIdx.toNat < s.rN.toNat ↔ s.rW.toNat * s.rH.toNat < 8 * s.rN.toNat) ∧
    8 * s.byteIdx.toNat + s.bitIdx.toNat = min (8 * s.rN.toNat) (s.rW.toNat * s.rH.toNat) ∧
    ∃ l : BitVec 32, l.toNat = 8 * s.byteIdx.toNat + s.bitIdx.toNat ∧
      exec (.enc s.rCh s.rSel s.rW s.rH s.rN) s = .next { s with
        code := if s.byteIdx.toNat < s.rN.toNat then .insufficientCapacity else .ok
        len := l, phase := .idle }

/-! ## The decoder's block steps -/

/-- R153: the `DEC` pixel step, on a bit that fills a byte and on one that does not, and that nothing else changes. -/
def Obligations.DecPixelStep : Prop :=
  ∀ (s : State) (p : Pixel), Inv s → s.phase = .decRun → s.bitsRead ≠ s.rN → s.rW ≠ 0 → s.y.toNat < s.rH.toNat →
    Memory.read (s.bank s.rSel) (s.y.toNat * s.rW.toNat + s.x.toNat) = some p →
    ∃ (t : State) (a : Byte), exec (.dec s.rCh s.rSel s.rW s.rH s.rN) s = .next t ∧
      a.toNat = (s.acc.toNat <<< 1 ||| (lsb (chan p s.rCh)).toNat) % 2 ^ 8 ∧
      a.toNat = 2 * s.acc.toNat + (lsb (chan p s.rCh)).toNat ∧
      t.bitsRead.toNat = s.bitsRead.toNat + 1 ∧
      (if s.n = 7 then
        Memory.read t.out s.outLen.toNat = some a ∧ t.outLen.toNat = s.outLen.toNat + 1 ∧ t.acc = 0 ∧ t.n = 0 ∧
          ∀ j, j ≠ s.outLen.toNat → Memory.read t.out j = Memory.read s.out j
        else t.acc = a ∧ t.n.toNat = s.n.toNat + 1 ∧ t.outLen = s.outLen ∧ t.out = s.out) ∧
      (if s.x.toNat + 1 < s.rW.toNat then t.x.toNat = s.x.toNat + 1 ∧ t.y = s.y
        else t.x = 0 ∧ t.y.toNat = s.y.toNat + 1) ∧
      t = { s with acc := t.acc, n := t.n, bitsRead := t.bitsRead, out := t.out, outLen := t.outLen, x := t.x, y := t.y }

/-- R154: the `DEC` normal completion step; a partial byte is right-padded with zero bits and counted; nothing else changes. -/
def Obligations.DecNormalCompletionStep : Prop :=
  ∀ s : State, Inv s → s.phase = .decRun → s.bitsRead = s.rN →
    ∃ t, exec (.dec s.rCh s.rSel s.rW s.rH s.rN) s = .next t ∧
      t.phase = .idle ∧ t.code = .ok ∧ t.len.toNat = (s.rN.toNat + 7) / 8 ∧
      (if s.n = 0 then t.len = s.outLen ∧ t.outLen = s.outLen ∧ t.out = s.out
        else t.len.toNat = s.outLen.toNat + 1 ∧ t.outLen.toNat = s.outLen.toNat + 1 ∧
          (∃ v : Byte, Memory.read t.out s.outLen.toNat = some v ∧ v.toNat = s.acc.toNat * 2 ^ (8 - s.n.toNat)) ∧
          ∀ j, j ≠ s.outLen.toNat → Memory.read t.out j = Memory.read s.out j) ∧
      t = { s with phase := t.phase, code := t.code, len := t.len, out := t.out, outLen := t.outLen }

/-- R155: the `DEC` overrun completion step. With the grid exhausted all `P` pixels have been read, and the bit count is then unmet
exactly when `P < N`; the step changes nothing but `phase`, `code` and `len` (the pending bits are not written), and `len` is
`floor(P / 8)`. -/
def Obligations.DecOverrunCompletionStep : Prop :=
  ∀ s : State, Inv s → s.phase = .decRun → (s.rW = 0 ∨ s.rH.toNat ≤ s.y.toNat) →
    s.bitsRead.toNat = s.rW.toNat * s.rH.toNat ∧
    (s.bitsRead ≠ s.rN ↔ s.rW.toNat * s.rH.toNat < s.rN.toNat) ∧
    (s.bitsRead ≠ s.rN → s.outLen.toNat = s.rW.toNat * s.rH.toNat / 8 ∧
      exec (.dec s.rCh s.rSel s.rW s.rH s.rN) s = .next { s with
        code := .insufficientPixels, len := s.outLen, phase := .idle })

/-- R156: `DEC` with `N = 0` takes no pixel step: after its start the next step is the normal completion, with code 0, length 0 and
every memory as it was, whatever `W`, `H` and the image are. -/
def Obligations.ZeroBitCountReadsNothing : Prop :=
  ∀ (s : State) (ch : BitVec 2) (sel : Bit) (w h : BitVec 16),
    s.phase = .idle → s.host = [] → ch ≠ 3 → w.toNat * h.toNat ≤ s.caps.imgCap →
    ∃ s1 t, exec (.dec ch sel w h 0) s = .next s1 ∧ s1.phase = .decRun ∧ step s1 = .next t ∧
      t.phase = .idle ∧ t.code = .ok ∧ t.len = 0 ∧
      t.img0 = s.img0 ∧ t.img1 = s.img1 ∧ t.pay = s.pay ∧ t.out = s.out

/-! ## Whole commands -/

/-- R137: the result of `ENC` in closed form. `S` is the source image and `Y` the payload, as far as the command reads them (R234).
After its start and `P + 1` block steps the command has completed. -/
def Obligations.EncResultClosedForm : Prop :=
  ∀ (s : State) (ch : BitVec 2) (sel : Bit) (w h : BitVec 16) (n : BitVec 32) (S : Nat → Pixel) (Y : Nat → Byte),
    s.phase = .idle → s.host = [] → ch ≠ 3 → w.toNat * h.toNat ≤ s.caps.imgCap →
    min n.toNat ((w.toNat * h.toNat + 7) / 8) ≤ s.caps.payCap →
    PixelsAre s sel (w.toNat * h.toNat) S → PayloadIs s (min n.toNat ((w.toNat * h.toNat + 7) / 8)) Y →
    ∃ s1 t, exec (.enc ch sel w h n) s = .next s1 ∧ runSteps (w.toNat * h.toNat + 1) s1 = .next t ∧
      t.phase = .idle ∧
      (∀ k < w.toNat * h.toNat, Memory.read (t.bank (1 - sel)) k =
        some (if k < 8 * n.toNat then
          withChan (S k) ch (setLsb (chan (S k) ch) (bitAt (Y (k / 8)) (BitVec.ofNat 3 (k % 8)))) else S k)) ∧
      (∀ k, w.toNat * h.toNat ≤ k → Memory.read (t.bank (1 - sel)) k = Memory.read (s.bank (1 - sel)) k) ∧
      t.bank sel = s.bank sel ∧ t.pay = s.pay ∧ t.out = s.out ∧
      t.len.toNat = min (8 * n.toNat) (w.toNat * h.toNat) ∧
      t.code = (if w.toNat * h.toNat < 8 * n.toNat then .insufficientCapacity else .ok)

/-- R157: the result of `DEC` in closed form. `S` is the image as far as the command reads it (R235). After its start and
`min(N, P) + 1` block steps the command has completed. -/
def Obligations.DecResultClosedForm : Prop :=
  ∀ (s : State) (ch : BitVec 2) (sel : Bit) (w h : BitVec 16) (n : BitVec 32) (S : Nat → Pixel),
    s.phase = .idle → s.host = [] → ch ≠ 3 → w.toNat * h.toNat ≤ s.caps.imgCap →
    (min n.toNat (w.toNat * h.toNat) + 7) / 8 ≤ s.caps.outCap →
    PixelsAre s sel (min n.toNat (w.toNat * h.toNat)) S →
    ∃ s1 t, exec (.dec ch sel w h n) s = .next s1 ∧ runSteps (min n.toNat (w.toNat * h.toNat) + 1) s1 = .next t ∧
      t.phase = .idle ∧
      (if n.toNat ≤ w.toNat * h.toNat then
        t.code = .ok ∧ t.len.toNat = (n.toNat + 7) / 8 ∧
          ∀ j < t.len.toNat, Memory.read t.out j = some (byteOf (fun k => lsb (chan (S k) ch)) n.toNat j)
        else
        t.code = .insufficientPixels ∧ t.len.toNat = w.toNat * h.toNat / 8 ∧
          ∀ j < t.len.toNat, Memory.read t.out j =
            some (byteOf (fun k => lsb (chan (S k) ch)) (w.toNat * h.toNat) j)) ∧
      (∀ j, t.len.toNat ≤ j → Memory.read t.out j = Memory.read s.out j) ∧
      t.img0 = s.img0 ∧ t.img1 = s.img1 ∧ t.pay = s.pay

/-- R158 item 1, the round trip: `ENC` of `L` bytes into an image of at least `8L` pixels, then `DEC` of `8L` bits from the bank it
wrote, with any width and height of at least `8L` pixels, gives the payload back. -/
def Obligations.EncThenDecRoundTrip : Prop :=
  ∀ (s : State) (ch : BitVec 2) (sel : Bit) (w h w' h' : BitVec 16) (L n' : BitVec 32) (S : Nat → Pixel) (Y : Nat → Byte),
    s.phase = .idle → s.host = [] → ch ≠ 3 →
    w.toNat * h.toNat ≤ s.caps.imgCap → w'.toNat * h'.toNat ≤ s.caps.imgCap →
    L.toNat ≤ s.caps.payCap → L.toNat ≤ s.caps.outCap →
    8 * L.toNat ≤ w.toNat * h.toNat → 8 * L.toNat ≤ w'.toNat * h'.toNat → n'.toNat = 8 * L.toNat →
    PixelsAre s sel (w.toNat * h.toNat) S → PayloadIs s L.toNat Y →
    ∃ s1 t s2 u, exec (.enc ch sel w h L) s = .next s1 ∧ runSteps (w.toNat * h.toNat + 1) s1 = .next t ∧
      t.code = .ok ∧ t.len.toNat = 8 * L.toNat ∧
      exec (.dec ch (1 - sel) w' h' n') t = .next s2 ∧ runSteps (8 * L.toNat + 1) s2 = .next u ∧
      u.phase = .idle ∧ u.code = .ok ∧ u.len = L ∧ ∀ j < L.toNat, Memory.read u.out j = some (Y j)

/-- R138 item 1, channel isolation: in the output of `ENC` every channel but the designated one is that of the source pixel, and so
are bits 7 to 1 of the designated channel; bit 0 can differ only in the first `min(8N, P)` pixels. -/
def Obligations.EncLeavesOtherBitsAlone : Prop :=
  ∀ (s : State) (ch : BitVec 2) (sel : Bit) (w h : BitVec 16) (n : BitVec 32) (S : Nat → Pixel) (Y : Nat → Byte),
    s.phase = .idle → s.host = [] → ch ≠ 3 → w.toNat * h.toNat ≤ s.caps.imgCap →
    min n.toNat ((w.toNat * h.toNat + 7) / 8) ≤ s.caps.payCap →
    PixelsAre s sel (w.toNat * h.toNat) S → PayloadIs s (min n.toNat ((w.toNat * h.toNat + 7) / 8)) Y →
    ∃ s1 t, exec (.enc ch sel w h n) s = .next s1 ∧ runSteps (w.toNat * h.toNat + 1) s1 = .next t ∧
      ∀ k < w.toNat * h.toNat, ∃ q, Memory.read (t.bank (1 - sel)) k = some q ∧
        (∀ c, c ≠ ch → chan q c = chan (S k) c) ∧ chan q ch >>> 1 = chan (S k) ch >>> 1 ∧
        (8 * n.toNat ≤ k → q = S k)

/-- R232: `RESET` in mid-command, after `k` pixel steps. The destination holds the first `k` pixels of `ENC`'s result (the first
`floor(k / 8)` whole bytes of `DEC`'s) and is otherwise as before the command; no code is reported. -/
def Obligations.MidCommandResetKeepsPrefix : Prop :=
  (∀ (s : State) (ch : BitVec 2) (sel : Bit) (w h : BitVec 16) (n : BitVec 32) (S : Nat → Pixel) (Y : Nat → Byte) (k : Nat),
    s.phase = .idle → s.host = [] → ch ≠ 3 → w.toNat * h.toNat ≤ s.caps.imgCap →
    min n.toNat ((w.toNat * h.toNat + 7) / 8) ≤ s.caps.payCap →
    PixelsAre s sel (w.toNat * h.toNat) S → PayloadIs s (min n.toNat ((w.toNat * h.toNat + 7) / 8)) Y →
    k ≤ w.toNat * h.toNat →
    ∃ s1 t u, exec (.enc ch sel w h n) s = .next s1 ∧ runSteps k s1 = .next t ∧ t.phase = .encRun ∧
      step { t with host := [.reset] } = .next u ∧ u.phase = .idle ∧ u.code = .ok ∧ u.len = 0 ∧
      (∀ j < k, Memory.read (u.bank (1 - sel)) j = some (encodedPixel S Y ch n.toNat j)) ∧
      (∀ j, k ≤ j → Memory.read (u.bank (1 - sel)) j = Memory.read (s.bank (1 - sel)) j) ∧
      u.bank sel = s.bank sel ∧ u.pay = s.pay ∧ u.out = s.out) ∧
  (∀ (s : State) (ch : BitVec 2) (sel : Bit) (w h : BitVec 16) (n : BitVec 32) (S : Nat → Pixel) (k : Nat),
    s.phase = .idle → s.host = [] → ch ≠ 3 → w.toNat * h.toNat ≤ s.caps.imgCap →
    (min n.toNat (w.toNat * h.toNat) + 7) / 8 ≤ s.caps.outCap →
    PixelsAre s sel (min n.toNat (w.toNat * h.toNat)) S → k ≤ min n.toNat (w.toNat * h.toNat) →
    ∃ s1 t u, exec (.dec ch sel w h n) s = .next s1 ∧ runSteps k s1 = .next t ∧ t.phase = .decRun ∧
      step { t with host := [.reset] } = .next u ∧ u.phase = .idle ∧ u.code = .ok ∧ u.len = 0 ∧
      u.acc = 0 ∧ u.n = 0 ∧
      (∀ j < k / 8, Memory.read u.out j = some (byteOf (fun k => lsb (chan (S k) ch)) k j)) ∧
      (∀ j, k / 8 ≤ j → Memory.read u.out j = Memory.read s.out j) ∧
      u.img0 = s.img0 ∧ u.img1 = s.img1 ∧ u.pay = s.pay)

/-- R238, R6: a running command's block steps are bounded: each block step leaves one fewer, and a started `ENC` has `P + 1` of them,
a started `DEC` `N + 1` when `N <= P` and `P + 1` when `N > P`. At none left the block is in `IDLE`. All are at most
`65535 * 65535 + 1`. -/
def Obligations.CommandEndsAfterStatedSteps : Prop :=
  (∀ s t : State, Inv s → s.phase ≠ .idle → HostWaits s → step s = .next t → stepsLeft t + 1 = stepsLeft s) ∧
  (∀ s : State, stepsLeft s = 0 ↔ s.phase = .idle) ∧
  (∀ (s t : State) (ch : BitVec 2) (sel : Bit) (w h : BitVec 16) (n : BitVec 32), s.phase = .idle →
    (exec (.enc ch sel w h n) s = .next t → t.phase ≠ .idle → stepsLeft t = w.toNat * h.toNat + 1) ∧
    (exec (.dec ch sel w h n) s = .next t → t.phase ≠ .idle →
      stepsLeft t = (if n.toNat ≤ w.toNat * h.toNat then n.toNat else w.toNat * h.toNat) + 1)) ∧
  (∀ s : State, stepsLeft s ≤ 65535 * 65535 + 1)

/-! ## Invariants and safety -/

/-- R35, R36: the invariant holds at power-on. -/
def Obligations.PowerOnMeetsInvariant : Prop := Inv State.reset

/-- R233, R35, R75: at power-on the registers are as after `RESET`, and no element of any memory has a value (how that is
held is the model's, log entry 10). -/
def Obligations.PowerOnState : Prop :=
  step { State.reset with host := [.reset] } = .next State.reset ∧
  State.reset.phase = .idle ∧ State.reset.code = .ok ∧ State.reset.len = 0 ∧
  ∀ k : Nat, Memory.read State.reset.img0 k = none ∧ Memory.read State.reset.img1 k = none ∧
    Memory.read State.reset.pay k = none ∧ Memory.read State.reset.out k = none

/-- R36: every step keeps the invariant: the memories stay canonical and inside their capacities, the latched channel stays a colour
channel, the cursor stays in the grid, and the counters of the running command agree with the cursor. -/
def Obligations.StepKeepsInvariant : Prop :=
  ∀ s t : State, Inv s → step s = .next t → Inv t

/-- R67: a block step never presents an index outside a memory. -/
def Obligations.BlockStaysInsideMemories : Prop :=
  ∀ (s : State) (k : Nat), Inv s → step s ≠ .fault (.blockIndexOutOfRange k)

/-- R205, R75: a block step of a state that meets the invariant goes on wherever the pixel and the payload byte it reads are written;
in `IDLE` `exec` always goes on; `exec` refuses nothing. -/
def Obligations.BlockStepNeverFailsOnWrittenInputs : Prop :=
  (∀ (s : State) (i : Instr), Inv s → s.phase ≠ .idle →
    (s.phase = .encRun → exhausted s = false → Memory.read (s.bank s.rSel) (idx s) ≠ none ∧
      (s.byteIdx.toNat < s.rN.toNat → Memory.read s.pay s.byteIdx.toNat ≠ none)) →
    (s.phase = .decRun → s.bitsRead ≠ s.rN → exhausted s = false → Memory.read (s.bank s.rSel) (idx s) ≠ none) →
    ∃ t, exec i s = .next t) ∧
  (∀ (s : State) (i : Instr), s.phase = .idle → ∃ t, exec i s = .next t) ∧
  (∀ (s : State) (i : Instr) (r : Refusal), exec i s ≠ .refused r)

/-- R75, U1: a pixel step that reads a pixel, or a payload byte, that nothing has written stops with a model fault (log
entry 7). -/
def Obligations.UnwrittenReadsStop : Prop :=
  ∀ s : State, Inv s → s.rW ≠ 0 → s.y.toNat < s.rH.toNat →
    (Memory.read (s.bank s.rSel) (s.y.toNat * s.rW.toNat + s.x.toNat) = none →
      (s.phase = .encRun → exec (.enc s.rCh s.rSel s.rW s.rH s.rN) s =
        .fault (.unwrittenPixel s.rSel (s.y.toNat * s.rW.toNat + s.x.toNat))) ∧
      (s.phase = .decRun → s.bitsRead ≠ s.rN → exec (.dec s.rCh s.rSel s.rW s.rH s.rN) s =
        .fault (.unwrittenPixel s.rSel (s.y.toNat * s.rW.toNat + s.x.toNat)))) ∧
    (Memory.read (s.bank s.rSel) (s.y.toNat * s.rW.toNat + s.x.toNat) ≠ none → s.phase = .encRun →
      s.byteIdx.toNat < s.rN.toNat → Memory.read s.pay s.byteIdx.toNat = none →
      exec (.enc s.rCh s.rSel s.rW s.rH s.rN) s = .fault (.unwrittenPayload s.byteIdx.toNat))

/-! ## Frames -/

/-- The frame of both commands in `IDLE` (R181): no memory changes, and where the command is refused no register but `code` and `len`
does. -/
def Obligations.StartFrame : Prop :=
  ∀ (s t : State) (i : Instr), s.phase = .idle → exec i s = .next t →
    t.img0 = s.img0 ∧ t.img1 = s.img1 ∧ t.pay = s.pay ∧ t.out = s.out ∧
    t.caps = s.caps ∧ t.host = s.host ∧ t.replies = s.replies ∧ t.len = 0 ∧
    (t.phase = .idle → t = { s with code := t.code, len := 0 })

/-- The frame of `ENC` while it runs (R135, R136, R76, R33): the latched operands, the decoder's registers, the source bank, `PAY` and
`OUT` are unchanged, and so is every pixel of the other bank but the one at the cursor; the completion step changes only `phase`, `code`
and `len`; a pixel step leaves those three alone and, in the copy arm, the counters too. -/
def Obligations.EncStepFrame : Prop :=
  ∀ (s t : State) (ch : BitVec 2) (sel : Bit) (w h : BitVec 16) (n : BitVec 32), s.phase = .encRun →
    exec (.enc ch sel w h n) s = .next t →
    t.rCh = s.rCh ∧ t.rSel = s.rSel ∧ t.rW = s.rW ∧ t.rH = s.rH ∧ t.rN = s.rN ∧
    t.acc = s.acc ∧ t.n = s.n ∧ t.bitsRead = s.bitsRead ∧ t.outLen = s.outLen ∧
    t.bank s.rSel = s.bank s.rSel ∧ t.pay = s.pay ∧ t.out = s.out ∧
    t.caps = s.caps ∧ t.host = s.host ∧ t.replies = s.replies ∧
    (∀ k, k ≠ idx s → Memory.read (t.bank (1 - s.rSel)) k = Memory.read (s.bank (1 - s.rSel)) k) ∧
    (exhausted s = true → t = { s with phase := t.phase, code := t.code, len := t.len }) ∧
    (exhausted s = false → t.phase = s.phase ∧ t.code = s.code ∧ t.len = s.len ∧
      (s.rN.toNat ≤ s.byteIdx.toNat → t.byteIdx = s.byteIdx ∧ t.bitIdx = s.bitIdx))

/-- The frame of `DEC` while it runs (R153 to R155, R76, R33): the latched operands, the encoder's counters, both banks and `PAY` are
unchanged, and so is every byte of `OUT` but the one at `out_len`; `OUT` is wholly unchanged unless the step fills a byte or pads a
pending one; a completion step leaves the cursor, `acc`, `n` and `bits_read` alone, a pixel step leaves `phase`, `code` and `len` alone. -/
def Obligations.DecStepFrame : Prop :=
  ∀ (s t : State) (ch : BitVec 2) (sel : Bit) (w h : BitVec 16) (n : BitVec 32), s.phase = .decRun →
    exec (.dec ch sel w h n) s = .next t →
    t.rCh = s.rCh ∧ t.rSel = s.rSel ∧ t.rW = s.rW ∧ t.rH = s.rH ∧ t.rN = s.rN ∧
    t.byteIdx = s.byteIdx ∧ t.bitIdx = s.bitIdx ∧
    t.img0 = s.img0 ∧ t.img1 = s.img1 ∧ t.pay = s.pay ∧
    t.caps = s.caps ∧ t.host = s.host ∧ t.replies = s.replies ∧
    (∀ j, j ≠ s.outLen.toNat → Memory.read t.out j = Memory.read s.out j) ∧
    (s.bitsRead = s.rN → s.n = 0 → t.out = s.out ∧ t.outLen = s.outLen) ∧
    (s.bitsRead ≠ s.rN → exhausted s = true → t.out = s.out ∧ t.outLen = s.outLen) ∧
    (s.bitsRead ≠ s.rN → s.n ≠ 7 → t.out = s.out ∧ t.outLen = s.outLen) ∧
    ((s.bitsRead = s.rN ∨ exhausted s = true) → t.x = s.x ∧ t.y = s.y ∧ t.acc = s.acc ∧ t.n = s.n ∧
      t.bitsRead = s.bitsRead) ∧
    (s.bitsRead ≠ s.rN → exhausted s = false → t.phase = s.phase ∧ t.code = s.code ∧ t.len = s.len)

/-- R22, R33: while a command runs, no step but `RESET` changes the latched operands. -/
def Obligations.OperandsStayLatched : Prop :=
  ∀ s t : State, s.phase ≠ .idle → step s = .next t → s.host.head? ≠ some .reset →
    t.rCh = s.rCh ∧ t.rSel = s.rSel ∧ t.rW = s.rW ∧ t.rH = s.rH ∧ t.rN = s.rN

/-- R33, R60: while a command runs, no step writes its source bank or `PAY`; `ENC` does not write `OUT` and `DEC` does not write an
image bank. -/
def Obligations.RunningCommandKeepsItsInputs : Prop :=
  ∀ s t : State, s.phase ≠ .idle → step s = .next t →
    t.bank s.rSel = s.bank s.rSel ∧ t.pay = s.pay ∧
    (s.phase = .encRun → t.out = s.out) ∧ (s.phase = .decRun → t.img0 = s.img0 ∧ t.img1 = s.img1)

/-- R200, R201 to R204: who writes which code. A step that leaves a code other than the one it found: code 1 by an exhausted `ENC` with
payload left, code 2 by an exhausted `DEC` with bits left, code 3 by `ISSUE` of a descriptor that does not decode, code 4 by `ISSUE` of
a command that does not fit. -/
def Obligations.CodesHaveTheirRaisers : Prop :=
  ∀ s t : State, step s = .next t → t.code ≠ s.code →
    (t.code = .insufficientCapacity → s.phase = .encRun ∧ exhausted s = true ∧ s.byteIdx.toNat < s.rN.toNat) ∧
    (t.code = .insufficientPixels → s.phase = .decRun ∧ exhausted s = true ∧ s.bitsRead ≠ s.rN) ∧
    (t.code = .illegalCommand → s.phase = .idle ∧ t.phase = .idle ∧ t.len = 0 ∧
      ∃ d rest, s.host = .issue d :: rest ∧ legal d = false) ∧
    (t.code = .rangeError → s.phase = .idle ∧ t.phase = .idle ∧ t.len = 0 ∧
      ∃ d rest, s.host = .issue d :: rest ∧ legal d = true ∧
        ((fieldOp d = 0x01 ∧ encAdmissible (fieldW d) (fieldH d) (fieldN d) s.caps = false) ∨
          (fieldOp d = 0x02 ∧ decAdmissible (fieldW d) (fieldH d) (fieldN d) s.caps = false)))

/-- R153: channels other than `r_ch`, and bits 7 to 1 of the designated channel, do not influence anything a `DEC` step does: with
other images in the banks that agree in the hidden bits, the step leaves the same registers and the same bytes. -/
def Obligations.OnlyHiddenBitsInfluenceDec : Prop :=
  ∀ (s t : State) (m0 m1 : Memory 32) (ch : BitVec 2) (sel : Bit) (w h : BitVec 16) (n : BitVec 32), s.phase = .decRun →
    (∀ k, (Memory.read (({ s with img0 := m0, img1 := m1 } : State).bank s.rSel) k).map (fun p => lsb (chan p s.rCh)) =
      (Memory.read (s.bank s.rSel) k).map (fun p => lsb (chan p s.rCh))) →
    exec (.dec ch sel w h n) s = .next t →
    exec (.dec ch sel w h n) { s with img0 := m0, img1 := m1 } = .next { t with img0 := m0, img1 := m1 }

/-- R32: in `IDLE` no behaviour depends on what the hidden registers hold: with other values in them the step leaves the same phase,
code, length, memories and replies, and where it starts a command the whole state is the same. -/
def Obligations.HiddenRegistersDoNotMatter : Prop :=
  ∀ s t u : State, s.phase = .idle → step s = .next t →
    ∃ t', step { s with
        rCh := u.rCh, rSel := u.rSel, rW := u.rW, rH := u.rH, rN := u.rN, x := u.x, y := u.y
        byteIdx := u.byteIdx, bitIdx := u.bitIdx, acc := u.acc, n := u.n, bitsRead := u.bitsRead, outLen := u.outLen }
        = .next t' ∧
      t'.phase = t.phase ∧ t'.code = t.code ∧ t'.len = t.len ∧ t'.img0 = t.img0 ∧ t'.img1 = t.img1 ∧ t'.pay = t.pay ∧
      t'.out = t.out ∧ t'.host = t.host ∧ t'.replies = t.replies ∧ (t.phase ≠ .idle → t' = t)

/-! ## Bit utilities and the cursor -/

/-- R120 to R124, in numbers: `bitAt` counts from the most significant bit, `lsb` is the parity, `setLsb` replaces the lowest bit,
`chan` is the byte at `8c`, `withChan` replaces that byte. -/
def Obligations.BitUtilitiesInNumbers : Prop :=
  ∀ (b u : Byte) (k : BitVec 3) (v : Bit) (p : Pixel) (c : BitVec 2),
    (bitAt b k).toNat = b.toNat / 2 ^ (7 - k.toNat) % 2 ∧
    (lsb b).toNat = b.toNat % 2 ∧
    (setLsb b v).toNat = 2 * (b.toNat / 2) + v.toNat ∧
    (chan p c).toNat = p.toNat / 2 ^ (8 * c.toNat) % 256 ∧
    (withChan p c u).toNat + (chan p c).toNat * 2 ^ (8 * c.toNat) = p.toNat + u.toNat * 2 ^ (8 * c.toNat)

/-- R125: the five laws of the bit utilities. -/
def Obligations.BitUtilityLaws : Prop :=
  ∀ (b u : Byte) (v v' : Bit) (p : Pixel) (c c' : BitVec 2), c ≠ 3 →
    lsb (setLsb b v) = v ∧
    (setLsb b v).extractLsb' 1 7 = b.extractLsb' 1 7 ∧
    setLsb (setLsb b v) v' = setLsb b v' ∧
    chan (withChan p c u) c = u ∧ (c' ≠ c → chan (withChan p c u) c' = chan p c') ∧
    b.toNat = ((List.range 8).map fun k => (bitAt b (BitVec.ofNat 3 k)).toNat * 2 ^ (7 - k)).sum

/-- R134: where the cursor is on a pixel of the grid, `advance` goes to the next column, or to column 0 of the next row, and changes
nothing else; the index goes up by exactly 1, also across a row end; after the last pixel of the grid the cursor is exhausted. -/
def Obligations.CursorVisitsAscendingIndices : Prop :=
  ∀ s : State, s.x.toNat < s.rW.toNat → s.y.toNat < s.rH.toNat →
    (if s.x.toNat + 1 < s.rW.toNat then (advance s).x.toNat = s.x.toNat + 1 ∧ (advance s).y = s.y
      else (advance s).x = 0 ∧ (advance s).y.toNat = s.y.toNat + 1) ∧
    advance s = { s with x := (advance s).x, y := (advance s).y } ∧
    (exhausted (advance s) = false → idx (advance s) = idx s + 1 ∧ (advance s).x.toNat < s.rW.toNat) ∧
    (exhausted (advance s) = true ↔ idx s + 1 = s.rW.toNat * s.rH.toNat) ∧
    (advance s).y.toNat ≤ s.rH.toNat

/-! ## The host's operations -/

/-- R184: `RDSR` in every phase returns `(code << 8) | phase` or `len` and changes nothing of the block; while a command runs the words
are its phase and 0. The list of replies is the model's, log entry 3. -/
def Obligations.StatusRegistersRead : Prop :=
  ∀ (s : State) (k : Bit) (rest : List HostMove), s.host = .rdsr k :: rest →
    ∃ v : BitVec 32, step s = .next { s with host := rest, replies := .status v :: s.replies } ∧
      v.toNat = (if k = 0 then s.code.toBits.toNat * 256 + s.phase.toBits.toNat else s.len.toNat) ∧
      (Inv s → s.phase ≠ .idle → v.toNat = if k = 0 then s.phase.toBits.toNat else 0)

/-- R185, R65: `HRD` and `HWR` of an image bank in `IDLE` below the capacity. `HRD` returns the element where it is written (any
value where it is not: log entry 4) and changes nothing; `HWR` sets that element and leaves every other element of every memory alone. -/
def Obligations.HostPixelAccess : Prop :=
  ∀ (s : State) (b : Bit) (i : Index) (rest : List HostMove), s.phase = .idle → i.toNat < s.caps.imgCap →
    (∀ p, s.host = .hrdPixel b i :: rest → Memory.read (s.bank b) i.toNat = some p →
      step s = .next { s with host := rest, replies := .pixel p :: s.replies }) ∧
    (s.host = .hrdPixel b i :: rest → ∃ p, step s = .next { s with host := rest, replies := .pixel p :: s.replies }) ∧
    (∀ v, s.host = .hwrPixel b i v :: rest →
      ∃ t, step s = .next t ∧ Memory.read (t.bank b) i.toNat = some v ∧
        (∀ k, k ≠ i.toNat → Memory.read (t.bank b) k = Memory.read (s.bank b) k) ∧
        t.bank (1 - b) = s.bank (1 - b) ∧ t = { s with host := rest, img0 := t.img0, img1 := t.img1 })

/-- R185, R65: `HRD` and `HWR` of `PAY` and `OUT`. -/
def Obligations.HostByteAccess : Prop :=
  ∀ (s : State) (i : Index) (rest : List HostMove), s.phase = .idle →
    (i.toNat < s.caps.payCap →
      (∀ v, s.host = .hrdByte .pay i :: rest → Memory.read s.pay i.toNat = some v →
        step s = .next { s with host := rest, replies := .byte v :: s.replies }) ∧
      (s.host = .hrdByte .pay i :: rest → ∃ v, step s = .next { s with host := rest, replies := .byte v :: s.replies }) ∧
      (∀ v, s.host = .hwrByte .pay i v :: rest →
        ∃ t, step s = .next t ∧ Memory.read t.pay i.toNat = some v ∧
          (∀ k, k ≠ i.toNat → Memory.read t.pay k = Memory.read s.pay k) ∧ t = { s with host := rest, pay := t.pay })) ∧
    (i.toNat < s.caps.outCap →
      (∀ v, s.host = .hrdByte .out i :: rest → Memory.read s.out i.toNat = some v →
        step s = .next { s with host := rest, replies := .byte v :: s.replies }) ∧
      (s.host = .hrdByte .out i :: rest → ∃ v, step s = .next { s with host := rest, replies := .byte v :: s.replies }) ∧
      (∀ v, s.host = .hwrByte .out i v :: rest →
        ∃ t, step s = .next t ∧ Memory.read t.out i.toNat = some v ∧
          (∀ k, k ≠ i.toNat → Memory.read t.out k = Memory.read s.out k) ∧ t = { s with host := rest, out := t.out }))

/-- X6, R67, R185: a host access at or above the capacity has no step: the model is stuck, by name (log entry 9). -/
def Obligations.HostAccessOutOfRangeIsStuck : Prop :=
  ∀ (s : State) (b : Bit) (i : Index) (rest : List HostMove), s.phase = .idle →
    (s.caps.imgCap ≤ i.toNat →
      (s.host = .hrdPixel b i :: rest → step s = .fault (.hostIndexOutOfRange i.toNat)) ∧
      (∀ v, s.host = .hwrPixel b i v :: rest → step s = .fault (.hostIndexOutOfRange i.toNat))) ∧
    (s.caps.payCap ≤ i.toNat →
      (s.host = .hrdByte .pay i :: rest → step s = .fault (.hostIndexOutOfRange i.toNat)) ∧
      (∀ v, s.host = .hwrByte .pay i v :: rest → step s = .fault (.hostIndexOutOfRange i.toNat))) ∧
    (s.caps.outCap ≤ i.toNat →
      (s.host = .hrdByte .out i :: rest → step s = .fault (.hostIndexOutOfRange i.toNat)) ∧
      (∀ v, s.host = .hwrByte .out i v :: rest → step s = .fault (.hostIndexOutOfRange i.toNat)))

/-- R183, R69: while a command runs, `ISSUE`, `HRD` and `HWR` have no step: the move stays at the host's ports, nothing is returned to
the host, and the step is the one the block takes with no host move at all. -/
def Obligations.BusyBlockHoldsTheHost : Prop :=
  ∀ (s t : State) (m : HostMove) (rest : List HostMove), s.phase ≠ .idle → s.host = m :: rest →
    ((∃ d, m = .issue d) ∨ (∃ b i, m = .hrdPixel b i) ∨ (∃ a i, m = .hrdByte a i) ∨
      (∃ b i v, m = .hwrPixel b i v) ∨ (∃ a i v, m = .hwrByte a i v)) →
    step s = .next t →
    t.host = m :: rest ∧ t.replies = s.replies ∧ step { s with host := [] } = .next { t with host := [] }

/-- R186, R231: `RESET` in every phase: every register takes its value of R35, no memory changes, and the status registers read 0. -/
def Obligations.ResetClearsRegistersOnly : Prop :=
  ∀ (s : State) (rest : List HostMove), s.host = .reset :: rest →
    ∃ t, step s = .next t ∧
      t = { s with
        host := rest, phase := .idle, rCh := 0, rSel := 0, rW := 0, rH := 0, rN := 0, x := 0, y := 0
        byteIdx := 0, bitIdx := 0, acc := 0, n := 0, bitsRead := 0, outLen := 0, code := .ok, len := 0 } ∧
      statusWord t 0 = 0 ∧ statusWord t 1 = 0

/-- R187: the `idle` output is 1 exactly when `phase = IDLE`, 0 otherwise, and tells what `SR0.PHASE = 0` tells. -/
def Obligations.IdleOutputMirrorsPhase : Prop :=
  ∀ s : State, (idleOutput s = 1 ↔ s.phase = .idle) ∧ (idleOutput s = 0 ↔ s.phase ≠ .idle) ∧
    (idleOutput s = 1 ↔ (statusWord s 0).extractLsb' 0 2 = 0)

/-- R62: byte `4i + c` of a bank's byte view is channel `c` of pixel `i`. -/
def Obligations.ByteViewIsLittleEndian : Prop :=
  ∀ (m : Memory 32) (i : Nat) (p : Pixel), Memory.read m i = some p →
    Memory.byteView m (4 * i) = some (p.extractLsb' 0 8) ∧ Memory.byteView m (4 * i + 1) = some (p.extractLsb' 8 8) ∧
    Memory.byteView m (4 * i + 2) = some (p.extractLsb' 16 8) ∧ Memory.byteView m (4 * i + 3) = some (p.extractLsb' 24 8)
end

