-- ==== Sys2Proof/Laws/Decode.lean ====
section
/-!
SUPPORT. What decode can answer, said once (30_encoding.md R94, R96).
-/

namespace Sys2Proof

/-- `legal` as the three conditions of R94. -/
theorem legal_iff (d : Descriptor) :
    legal d = true ↔ (fieldOp d = opEnc ∨ fieldOp d = opDec) ∧ fieldRsv d = 0 ∧ fieldCh d ≠ 3 := by
  unfold legal
  simp only [Bool.and_eq_true, Bool.or_eq_true, beq_iff_eq, bne_iff_ne, and_assoc]

/-- Everything a descriptor that decodes can be (R96). -/
theorem decode_ok_cases {d : Descriptor} {i : Instr} (h : decode d = .ok i) :
    fieldRsv d = 0 ∧ fieldCh d ≠ 3 ∧
      ((fieldOp d = opEnc ∧ i = .enc (fieldCh d) (fieldSel d) (fieldW d) (fieldH d) (fieldN d)) ∨
        (fieldOp d = opDec ∧ i = .dec (fieldCh d) (fieldSel d) (fieldW d) (fieldH d) (fieldN d))) := by
  unfold decode at h
  by_cases h1 : fieldRsv d = 0
  · rw [if_neg (not_not_intro h1)] at h
    by_cases h2 : fieldCh d = 3
    · rw [if_pos h2] at h; cases h
    · rw [if_neg h2] at h
      refine ⟨h1, h2, ?_⟩
      split at h
      · exact .inl ⟨‹_›, (Except.ok.inj h).symm⟩
      · split at h
        · exact .inr ⟨‹_›, (Except.ok.inj h).symm⟩
        · cases h
  · rw [if_pos h1] at h; cases h

/-- A descriptor that decodes is legal. -/
theorem legal_of_decode_ok {d : Descriptor} {i : Instr} (h : decode d = .ok i) : legal d = true := by
  obtain ⟨h1, h2, h3⟩ := decode_ok_cases h
  exact (legal_iff d).2 ⟨h3.imp And.left And.left, h1, h2⟩

/-- A legal descriptor decodes. -/
theorem decode_ok_of_legal {d : Descriptor} (h : legal d = true) : ∃ i, decode d = .ok i := by
  obtain ⟨h3, h1, h2⟩ := (legal_iff d).1 h
  unfold decode
  rw [if_neg (not_not_intro h1), if_neg h2]
  rcases h3 with h3 | h3
  · exact ⟨_, if_pos h3⟩
  · rw [h3, if_neg (by decide), if_pos rfl]
    exact ⟨_, rfl⟩

/-- A descriptor that is refused is not legal. -/
theorem not_legal_of_decode_error {d : Descriptor} {e : DecodeError} (h : decode d = .error e) : legal d = false := by
  cases hl : legal d with
  | false => rfl
  | true =>
    obtain ⟨i, hi⟩ := decode_ok_of_legal hl
    rw [hi] at h; cases h

end Sys2Proof
end

