-- ==== Sys2Proof/Laws/State.lean ====
section
/-!
SUPPORT. One lemma per field per update of State, true by rfl, so that no proof unfolds a record update.
-/

namespace Sys2Proof.Machine

/-! ### advance -/

section
variable (s : State)

@[simp] theorem advance_phase : (advance s).phase = s.phase := rfl
@[simp] theorem advance_rCh : (advance s).rCh = s.rCh := rfl
@[simp] theorem advance_rSel : (advance s).rSel = s.rSel := rfl
@[simp] theorem advance_rW : (advance s).rW = s.rW := rfl
@[simp] theorem advance_rH : (advance s).rH = s.rH := rfl
@[simp] theorem advance_rN : (advance s).rN = s.rN := rfl
@[simp] theorem advance_x : (advance s).x = if rowGoesOn s then s.x + 1 else 0 := rfl
@[simp] theorem advance_y : (advance s).y = if rowGoesOn s then s.y else s.y + 1 := rfl
@[simp] theorem advance_byteIdx : (advance s).byteIdx = s.byteIdx := rfl
@[simp] theorem advance_bitIdx : (advance s).bitIdx = s.bitIdx := rfl
@[simp] theorem advance_acc : (advance s).acc = s.acc := rfl
@[simp] theorem advance_n : (advance s).n = s.n := rfl
@[simp] theorem advance_bitsRead : (advance s).bitsRead = s.bitsRead := rfl
@[simp] theorem advance_outLen : (advance s).outLen = s.outLen := rfl
@[simp] theorem advance_code : (advance s).code = s.code := rfl
@[simp] theorem advance_len : (advance s).len = s.len := rfl
@[simp] theorem advance_img0 : (advance s).img0 = s.img0 := rfl
@[simp] theorem advance_img1 : (advance s).img1 = s.img1 := rfl
@[simp] theorem advance_pay : (advance s).pay = s.pay := rfl
@[simp] theorem advance_out : (advance s).out = s.out := rfl
@[simp] theorem advance_caps : (advance s).caps = s.caps := rfl
@[simp] theorem advance_host : (advance s).host = s.host := rfl
@[simp] theorem advance_replies : (advance s).replies = s.replies := rfl
@[simp] theorem advance_bank (k : Bit) : (advance s).bank k = s.bank k := rfl

end

/-! ### setBank -/

section
variable (s : State) (b : Bit) (m : Memory 32)

@[simp] theorem setBank_phase : (s.setBank b m).phase = s.phase := rfl
@[simp] theorem setBank_rCh : (s.setBank b m).rCh = s.rCh := rfl
@[simp] theorem setBank_rSel : (s.setBank b m).rSel = s.rSel := rfl
@[simp] theorem setBank_rW : (s.setBank b m).rW = s.rW := rfl
@[simp] theorem setBank_rH : (s.setBank b m).rH = s.rH := rfl
@[simp] theorem setBank_rN : (s.setBank b m).rN = s.rN := rfl
@[simp] theorem setBank_x : (s.setBank b m).x = s.x := rfl
@[simp] theorem setBank_y : (s.setBank b m).y = s.y := rfl
@[simp] theorem setBank_byteIdx : (s.setBank b m).byteIdx = s.byteIdx := rfl
@[simp] theorem setBank_bitIdx : (s.setBank b m).bitIdx = s.bitIdx := rfl
@[simp] theorem setBank_acc : (s.setBank b m).acc = s.acc := rfl
@[simp] theorem setBank_n : (s.setBank b m).n = s.n := rfl
@[simp] theorem setBank_bitsRead : (s.setBank b m).bitsRead = s.bitsRead := rfl
@[simp] theorem setBank_outLen : (s.setBank b m).outLen = s.outLen := rfl
@[simp] theorem setBank_code : (s.setBank b m).code = s.code := rfl
@[simp] theorem setBank_len : (s.setBank b m).len = s.len := rfl
@[simp] theorem setBank_img0 : (s.setBank b m).img0 = if b = 0 then m else s.img0 := rfl
@[simp] theorem setBank_img1 : (s.setBank b m).img1 = if b = 0 then s.img1 else m := rfl
@[simp] theorem setBank_pay : (s.setBank b m).pay = s.pay := rfl
@[simp] theorem setBank_out : (s.setBank b m).out = s.out := rfl
@[simp] theorem setBank_caps : (s.setBank b m).caps = s.caps := rfl
@[simp] theorem setBank_host : (s.setBank b m).host = s.host := rfl
@[simp] theorem setBank_replies : (s.setBank b m).replies = s.replies := rfl

end

/-! ### setPay -/

section
variable (s : State) (m : Memory 8)

@[simp] theorem setPay_phase : (s.setPay m).phase = s.phase := rfl
@[simp] theorem setPay_rCh : (s.setPay m).rCh = s.rCh := rfl
@[simp] theorem setPay_rSel : (s.setPay m).rSel = s.rSel := rfl
@[simp] theorem setPay_rW : (s.setPay m).rW = s.rW := rfl
@[simp] theorem setPay_rH : (s.setPay m).rH = s.rH := rfl
@[simp] theorem setPay_rN : (s.setPay m).rN = s.rN := rfl
@[simp] theorem setPay_x : (s.setPay m).x = s.x := rfl
@[simp] theorem setPay_y : (s.setPay m).y = s.y := rfl
@[simp] theorem setPay_byteIdx : (s.setPay m).byteIdx = s.byteIdx := rfl
@[simp] theorem setPay_bitIdx : (s.setPay m).bitIdx = s.bitIdx := rfl
@[simp] theorem setPay_acc : (s.setPay m).acc = s.acc := rfl
@[simp] theorem setPay_n : (s.setPay m).n = s.n := rfl
@[simp] theorem setPay_bitsRead : (s.setPay m).bitsRead = s.bitsRead := rfl
@[simp] theorem setPay_outLen : (s.setPay m).outLen = s.outLen := rfl
@[simp] theorem setPay_code : (s.setPay m).code = s.code := rfl
@[simp] theorem setPay_len : (s.setPay m).len = s.len := rfl
@[simp] theorem setPay_img0 : (s.setPay m).img0 = s.img0 := rfl
@[simp] theorem setPay_img1 : (s.setPay m).img1 = s.img1 := rfl
@[simp] theorem setPay_pay : (s.setPay m).pay = m := rfl
@[simp] theorem setPay_out : (s.setPay m).out = s.out := rfl
@[simp] theorem setPay_caps : (s.setPay m).caps = s.caps := rfl
@[simp] theorem setPay_host : (s.setPay m).host = s.host := rfl
@[simp] theorem setPay_replies : (s.setPay m).replies = s.replies := rfl
@[simp] theorem setPay_bank (k : Bit) : (s.setPay m).bank k = s.bank k := rfl

end

/-! ### setOut -/

section
variable (s : State) (m : Memory 8)

@[simp] theorem setOut_phase : (s.setOut m).phase = s.phase := rfl
@[simp] theorem setOut_rCh : (s.setOut m).rCh = s.rCh := rfl
@[simp] theorem setOut_rSel : (s.setOut m).rSel = s.rSel := rfl
@[simp] theorem setOut_rW : (s.setOut m).rW = s.rW := rfl
@[simp] theorem setOut_rH : (s.setOut m).rH = s.rH := rfl
@[simp] theorem setOut_rN : (s.setOut m).rN = s.rN := rfl
@[simp] theorem setOut_x : (s.setOut m).x = s.x := rfl
@[simp] theorem setOut_y : (s.setOut m).y = s.y := rfl
@[simp] theorem setOut_byteIdx : (s.setOut m).byteIdx = s.byteIdx := rfl
@[simp] theorem setOut_bitIdx : (s.setOut m).bitIdx = s.bitIdx := rfl
@[simp] theorem setOut_acc : (s.setOut m).acc = s.acc := rfl
@[simp] theorem setOut_n : (s.setOut m).n = s.n := rfl
@[simp] theorem setOut_bitsRead : (s.setOut m).bitsRead = s.bitsRead := rfl
@[simp] theorem setOut_outLen : (s.setOut m).outLen = s.outLen := rfl
@[simp] theorem setOut_code : (s.setOut m).code = s.code := rfl
@[simp] theorem setOut_len : (s.setOut m).len = s.len := rfl
@[simp] theorem setOut_img0 : (s.setOut m).img0 = s.img0 := rfl
@[simp] theorem setOut_img1 : (s.setOut m).img1 = s.img1 := rfl
@[simp] theorem setOut_pay : (s.setOut m).pay = s.pay := rfl
@[simp] theorem setOut_out : (s.setOut m).out = m := rfl
@[simp] theorem setOut_caps : (s.setOut m).caps = s.caps := rfl
@[simp] theorem setOut_host : (s.setOut m).host = s.host := rfl
@[simp] theorem setOut_replies : (s.setOut m).replies = s.replies := rfl
@[simp] theorem setOut_bank (k : Bit) : (s.setOut m).bank k = s.bank k := rfl

end

/-! ### accept -/

section
variable (ph : Phase) (ch : BitVec 2) (sel : Bit) (w h : BitVec 16) (n : BitVec 32) (s : State)

@[simp] theorem accept_phase : (accept ph ch sel w h n s).phase = ph := rfl
@[simp] theorem accept_rCh : (accept ph ch sel w h n s).rCh = ch := rfl
@[simp] theorem accept_rSel : (accept ph ch sel w h n s).rSel = sel := rfl
@[simp] theorem accept_rW : (accept ph ch sel w h n s).rW = w := rfl
@[simp] theorem accept_rH : (accept ph ch sel w h n s).rH = h := rfl
@[simp] theorem accept_rN : (accept ph ch sel w h n s).rN = n := rfl
@[simp] theorem accept_x : (accept ph ch sel w h n s).x = 0 := rfl
@[simp] theorem accept_y : (accept ph ch sel w h n s).y = 0 := rfl
@[simp] theorem accept_byteIdx : (accept ph ch sel w h n s).byteIdx = 0 := rfl
@[simp] theorem accept_bitIdx : (accept ph ch sel w h n s).bitIdx = 0 := rfl
@[simp] theorem accept_acc : (accept ph ch sel w h n s).acc = 0 := rfl
@[simp] theorem accept_n : (accept ph ch sel w h n s).n = 0 := rfl
@[simp] theorem accept_bitsRead : (accept ph ch sel w h n s).bitsRead = 0 := rfl
@[simp] theorem accept_outLen : (accept ph ch sel w h n s).outLen = 0 := rfl
@[simp] theorem accept_code : (accept ph ch sel w h n s).code = .ok := rfl
@[simp] theorem accept_len : (accept ph ch sel w h n s).len = 0 := rfl
@[simp] theorem accept_img0 : (accept ph ch sel w h n s).img0 = s.img0 := rfl
@[simp] theorem accept_img1 : (accept ph ch sel w h n s).img1 = s.img1 := rfl
@[simp] theorem accept_pay : (accept ph ch sel w h n s).pay = s.pay := rfl
@[simp] theorem accept_out : (accept ph ch sel w h n s).out = s.out := rfl
@[simp] theorem accept_caps : (accept ph ch sel w h n s).caps = s.caps := rfl
@[simp] theorem accept_host : (accept ph ch sel w h n s).host = s.host := rfl
@[simp] theorem accept_replies : (accept ph ch sel w h n s).replies = s.replies := rfl
@[simp] theorem accept_bank (k : Bit) : (accept ph ch sel w h n s).bank k = s.bank k := rfl

end

/-! ### refuse -/

section
variable (c : Code) (s : State)

@[simp] theorem refuse_phase : (refuse c s).phase = s.phase := rfl
@[simp] theorem refuse_rCh : (refuse c s).rCh = s.rCh := rfl
@[simp] theorem refuse_rSel : (refuse c s).rSel = s.rSel := rfl
@[simp] theorem refuse_rW : (refuse c s).rW = s.rW := rfl
@[simp] theorem refuse_rH : (refuse c s).rH = s.rH := rfl
@[simp] theorem refuse_rN : (refuse c s).rN = s.rN := rfl
@[simp] theorem refuse_x : (refuse c s).x = s.x := rfl
@[simp] theorem refuse_y : (refuse c s).y = s.y := rfl
@[simp] theorem refuse_byteIdx : (refuse c s).byteIdx = s.byteIdx := rfl
@[simp] theorem refuse_bitIdx : (refuse c s).bitIdx = s.bitIdx := rfl
@[simp] theorem refuse_acc : (refuse c s).acc = s.acc := rfl
@[simp] theorem refuse_n : (refuse c s).n = s.n := rfl
@[simp] theorem refuse_bitsRead : (refuse c s).bitsRead = s.bitsRead := rfl
@[simp] theorem refuse_outLen : (refuse c s).outLen = s.outLen := rfl
@[simp] theorem refuse_code : (refuse c s).code = c := rfl
@[simp] theorem refuse_len : (refuse c s).len = 0 := rfl
@[simp] theorem refuse_img0 : (refuse c s).img0 = s.img0 := rfl
@[simp] theorem refuse_img1 : (refuse c s).img1 = s.img1 := rfl
@[simp] theorem refuse_pay : (refuse c s).pay = s.pay := rfl
@[simp] theorem refuse_out : (refuse c s).out = s.out := rfl
@[simp] theorem refuse_caps : (refuse c s).caps = s.caps := rfl
@[simp] theorem refuse_host : (refuse c s).host = s.host := rfl
@[simp] theorem refuse_replies : (refuse c s).replies = s.replies := rfl
@[simp] theorem refuse_bank (k : Bit) : (refuse c s).bank k = s.bank k := rfl

end

/-! ### complete -/

section
variable (c : Code) (l : BitVec 32) (s : State)

@[simp] theorem complete_phase : (complete c l s).phase = .idle := rfl
@[simp] theorem complete_rCh : (complete c l s).rCh = s.rCh := rfl
@[simp] theorem complete_rSel : (complete c l s).rSel = s.rSel := rfl
@[simp] theorem complete_rW : (complete c l s).rW = s.rW := rfl
@[simp] theorem complete_rH : (complete c l s).rH = s.rH := rfl
@[simp] theorem complete_rN : (complete c l s).rN = s.rN := rfl
@[simp] theorem complete_x : (complete c l s).x = s.x := rfl
@[simp] theorem complete_y : (complete c l s).y = s.y := rfl
@[simp] theorem complete_byteIdx : (complete c l s).byteIdx = s.byteIdx := rfl
@[simp] theorem complete_bitIdx : (complete c l s).bitIdx = s.bitIdx := rfl
@[simp] theorem complete_acc : (complete c l s).acc = s.acc := rfl
@[simp] theorem complete_n : (complete c l s).n = s.n := rfl
@[simp] theorem complete_bitsRead : (complete c l s).bitsRead = s.bitsRead := rfl
@[simp] theorem complete_outLen : (complete c l s).outLen = s.outLen := rfl
@[simp] theorem complete_code : (complete c l s).code = c := rfl
@[simp] theorem complete_len : (complete c l s).len = l := rfl
@[simp] theorem complete_img0 : (complete c l s).img0 = s.img0 := rfl
@[simp] theorem complete_img1 : (complete c l s).img1 = s.img1 := rfl
@[simp] theorem complete_pay : (complete c l s).pay = s.pay := rfl
@[simp] theorem complete_out : (complete c l s).out = s.out := rfl
@[simp] theorem complete_caps : (complete c l s).caps = s.caps := rfl
@[simp] theorem complete_host : (complete c l s).host = s.host := rfl
@[simp] theorem complete_replies : (complete c l s).replies = s.replies := rfl
@[simp] theorem complete_bank (k : Bit) : (complete c l s).bank k = s.bank k := rfl

end

/-! ### countBit -/

section
variable (s : State)

@[simp] theorem countBit_phase : (countBit s).phase = s.phase := rfl
@[simp] theorem countBit_rCh : (countBit s).rCh = s.rCh := rfl
@[simp] theorem countBit_rSel : (countBit s).rSel = s.rSel := rfl
@[simp] theorem countBit_rW : (countBit s).rW = s.rW := rfl
@[simp] theorem countBit_rH : (countBit s).rH = s.rH := rfl
@[simp] theorem countBit_rN : (countBit s).rN = s.rN := rfl
@[simp] theorem countBit_x : (countBit s).x = s.x := rfl
@[simp] theorem countBit_y : (countBit s).y = s.y := rfl
@[simp] theorem countBit_byteIdx : (countBit s).byteIdx = if s.bitIdx = 7 then s.byteIdx + 1 else s.byteIdx := rfl
@[simp] theorem countBit_bitIdx : (countBit s).bitIdx = if s.bitIdx = 7 then 0 else s.bitIdx + 1 := rfl
@[simp] theorem countBit_acc : (countBit s).acc = s.acc := rfl
@[simp] theorem countBit_n : (countBit s).n = s.n := rfl
@[simp] theorem countBit_bitsRead : (countBit s).bitsRead = s.bitsRead := rfl
@[simp] theorem countBit_outLen : (countBit s).outLen = s.outLen := rfl
@[simp] theorem countBit_code : (countBit s).code = s.code := rfl
@[simp] theorem countBit_len : (countBit s).len = s.len := rfl
@[simp] theorem countBit_img0 : (countBit s).img0 = s.img0 := rfl
@[simp] theorem countBit_img1 : (countBit s).img1 = s.img1 := rfl
@[simp] theorem countBit_pay : (countBit s).pay = s.pay := rfl
@[simp] theorem countBit_out : (countBit s).out = s.out := rfl
@[simp] theorem countBit_caps : (countBit s).caps = s.caps := rfl
@[simp] theorem countBit_host : (countBit s).host = s.host := rfl
@[simp] theorem countBit_replies : (countBit s).replies = s.replies := rfl
@[simp] theorem countBit_bank (k : Bit) : (countBit s).bank k = s.bank k := rfl

end

/-! ### countByte -/

section
variable (s : State)

@[simp] theorem countByte_phase : (countByte s).phase = s.phase := rfl
@[simp] theorem countByte_rCh : (countByte s).rCh = s.rCh := rfl
@[simp] theorem countByte_rSel : (countByte s).rSel = s.rSel := rfl
@[simp] theorem countByte_rW : (countByte s).rW = s.rW := rfl
@[simp] theorem countByte_rH : (countByte s).rH = s.rH := rfl
@[simp] theorem countByte_rN : (countByte s).rN = s.rN := rfl
@[simp] theorem countByte_x : (countByte s).x = s.x := rfl
@[simp] theorem countByte_y : (countByte s).y = s.y := rfl
@[simp] theorem countByte_byteIdx : (countByte s).byteIdx = s.byteIdx := rfl
@[simp] theorem countByte_bitIdx : (countByte s).bitIdx = s.bitIdx := rfl
@[simp] theorem countByte_acc : (countByte s).acc = s.acc := rfl
@[simp] theorem countByte_n : (countByte s).n = s.n := rfl
@[simp] theorem countByte_bitsRead : (countByte s).bitsRead = s.bitsRead := rfl
@[simp] theorem countByte_outLen : (countByte s).outLen = s.outLen + 1 := rfl
@[simp] theorem countByte_code : (countByte s).code = s.code := rfl
@[simp] theorem countByte_len : (countByte s).len = s.len := rfl
@[simp] theorem countByte_img0 : (countByte s).img0 = s.img0 := rfl
@[simp] theorem countByte_img1 : (countByte s).img1 = s.img1 := rfl
@[simp] theorem countByte_pay : (countByte s).pay = s.pay := rfl
@[simp] theorem countByte_out : (countByte s).out = s.out := rfl
@[simp] theorem countByte_caps : (countByte s).caps = s.caps := rfl
@[simp] theorem countByte_host : (countByte s).host = s.host := rfl
@[simp] theorem countByte_replies : (countByte s).replies = s.replies := rfl
@[simp] theorem countByte_bank (k : Bit) : (countByte s).bank k = s.bank k := rfl

end

/-! ### emptyAcc -/

section
variable (s : State)

@[simp] theorem emptyAcc_phase : (emptyAcc s).phase = s.phase := rfl
@[simp] theorem emptyAcc_rCh : (emptyAcc s).rCh = s.rCh := rfl
@[simp] theorem emptyAcc_rSel : (emptyAcc s).rSel = s.rSel := rfl
@[simp] theorem emptyAcc_rW : (emptyAcc s).rW = s.rW := rfl
@[simp] theorem emptyAcc_rH : (emptyAcc s).rH = s.rH := rfl
@[simp] theorem emptyAcc_rN : (emptyAcc s).rN = s.rN := rfl
@[simp] theorem emptyAcc_x : (emptyAcc s).x = s.x := rfl
@[simp] theorem emptyAcc_y : (emptyAcc s).y = s.y := rfl
@[simp] theorem emptyAcc_byteIdx : (emptyAcc s).byteIdx = s.byteIdx := rfl
@[simp] theorem emptyAcc_bitIdx : (emptyAcc s).bitIdx = s.bitIdx := rfl
@[simp] theorem emptyAcc_acc : (emptyAcc s).acc = 0 := rfl
@[simp] theorem emptyAcc_n : (emptyAcc s).n = 0 := rfl
@[simp] theorem emptyAcc_bitsRead : (emptyAcc s).bitsRead = s.bitsRead + 1 := rfl
@[simp] theorem emptyAcc_outLen : (emptyAcc s).outLen = s.outLen := rfl
@[simp] theorem emptyAcc_code : (emptyAcc s).code = s.code := rfl
@[simp] theorem emptyAcc_len : (emptyAcc s).len = s.len := rfl
@[simp] theorem emptyAcc_img0 : (emptyAcc s).img0 = s.img0 := rfl
@[simp] theorem emptyAcc_img1 : (emptyAcc s).img1 = s.img1 := rfl
@[simp] theorem emptyAcc_pay : (emptyAcc s).pay = s.pay := rfl
@[simp] theorem emptyAcc_out : (emptyAcc s).out = s.out := rfl
@[simp] theorem emptyAcc_caps : (emptyAcc s).caps = s.caps := rfl
@[simp] theorem emptyAcc_host : (emptyAcc s).host = s.host := rfl
@[simp] theorem emptyAcc_replies : (emptyAcc s).replies = s.replies := rfl
@[simp] theorem emptyAcc_bank (k : Bit) : (emptyAcc s).bank k = s.bank k := rfl

end

/-! ### decGather -/

section
variable (a : Byte) (s : State)

@[simp] theorem decGather_phase : (decGather a s).phase = s.phase := rfl
@[simp] theorem decGather_rCh : (decGather a s).rCh = s.rCh := rfl
@[simp] theorem decGather_rSel : (decGather a s).rSel = s.rSel := rfl
@[simp] theorem decGather_rW : (decGather a s).rW = s.rW := rfl
@[simp] theorem decGather_rH : (decGather a s).rH = s.rH := rfl
@[simp] theorem decGather_rN : (decGather a s).rN = s.rN := rfl
@[simp] theorem decGather_x : (decGather a s).x = s.x := rfl
@[simp] theorem decGather_y : (decGather a s).y = s.y := rfl
@[simp] theorem decGather_byteIdx : (decGather a s).byteIdx = s.byteIdx := rfl
@[simp] theorem decGather_bitIdx : (decGather a s).bitIdx = s.bitIdx := rfl
@[simp] theorem decGather_acc : (decGather a s).acc = a := rfl
@[simp] theorem decGather_n : (decGather a s).n = s.n + 1 := rfl
@[simp] theorem decGather_bitsRead : (decGather a s).bitsRead = s.bitsRead + 1 := rfl
@[simp] theorem decGather_outLen : (decGather a s).outLen = s.outLen := rfl
@[simp] theorem decGather_code : (decGather a s).code = s.code := rfl
@[simp] theorem decGather_len : (decGather a s).len = s.len := rfl
@[simp] theorem decGather_img0 : (decGather a s).img0 = s.img0 := rfl
@[simp] theorem decGather_img1 : (decGather a s).img1 = s.img1 := rfl
@[simp] theorem decGather_pay : (decGather a s).pay = s.pay := rfl
@[simp] theorem decGather_out : (decGather a s).out = s.out := rfl
@[simp] theorem decGather_caps : (decGather a s).caps = s.caps := rfl
@[simp] theorem decGather_host : (decGather a s).host = s.host := rfl
@[simp] theorem decGather_replies : (decGather a s).replies = s.replies := rfl
@[simp] theorem decGather_bank (k : Bit) : (decGather a s).bank k = s.bank k := rfl

end

/-! ### setHost -/

section
variable (hs : List HostMove) (s : State)

@[simp] theorem setHost_phase : (setHost hs s).phase = s.phase := rfl
@[simp] theorem setHost_rCh : (setHost hs s).rCh = s.rCh := rfl
@[simp] theorem setHost_rSel : (setHost hs s).rSel = s.rSel := rfl
@[simp] theorem setHost_rW : (setHost hs s).rW = s.rW := rfl
@[simp] theorem setHost_rH : (setHost hs s).rH = s.rH := rfl
@[simp] theorem setHost_rN : (setHost hs s).rN = s.rN := rfl
@[simp] theorem setHost_x : (setHost hs s).x = s.x := rfl
@[simp] theorem setHost_y : (setHost hs s).y = s.y := rfl
@[simp] theorem setHost_byteIdx : (setHost hs s).byteIdx = s.byteIdx := rfl
@[simp] theorem setHost_bitIdx : (setHost hs s).bitIdx = s.bitIdx := rfl
@[simp] theorem setHost_acc : (setHost hs s).acc = s.acc := rfl
@[simp] theorem setHost_n : (setHost hs s).n = s.n := rfl
@[simp] theorem setHost_bitsRead : (setHost hs s).bitsRead = s.bitsRead := rfl
@[simp] theorem setHost_outLen : (setHost hs s).outLen = s.outLen := rfl
@[simp] theorem setHost_code : (setHost hs s).code = s.code := rfl
@[simp] theorem setHost_len : (setHost hs s).len = s.len := rfl
@[simp] theorem setHost_img0 : (setHost hs s).img0 = s.img0 := rfl
@[simp] theorem setHost_img1 : (setHost hs s).img1 = s.img1 := rfl
@[simp] theorem setHost_pay : (setHost hs s).pay = s.pay := rfl
@[simp] theorem setHost_out : (setHost hs s).out = s.out := rfl
@[simp] theorem setHost_caps : (setHost hs s).caps = s.caps := rfl
@[simp] theorem setHost_host : (setHost hs s).host = hs := rfl
@[simp] theorem setHost_replies : (setHost hs s).replies = s.replies := rfl
@[simp] theorem setHost_bank (k : Bit) : (setHost hs s).bank k = s.bank k := rfl

end

/-! ### reply -/

section
variable (r : Reply) (s : State)

@[simp] theorem reply_phase : (reply r s).phase = s.phase := rfl
@[simp] theorem reply_rCh : (reply r s).rCh = s.rCh := rfl
@[simp] theorem reply_rSel : (reply r s).rSel = s.rSel := rfl
@[simp] theorem reply_rW : (reply r s).rW = s.rW := rfl
@[simp] theorem reply_rH : (reply r s).rH = s.rH := rfl
@[simp] theorem reply_rN : (reply r s).rN = s.rN := rfl
@[simp] theorem reply_x : (reply r s).x = s.x := rfl
@[simp] theorem reply_y : (reply r s).y = s.y := rfl
@[simp] theorem reply_byteIdx : (reply r s).byteIdx = s.byteIdx := rfl
@[simp] theorem reply_bitIdx : (reply r s).bitIdx = s.bitIdx := rfl
@[simp] theorem reply_acc : (reply r s).acc = s.acc := rfl
@[simp] theorem reply_n : (reply r s).n = s.n := rfl
@[simp] theorem reply_bitsRead : (reply r s).bitsRead = s.bitsRead := rfl
@[simp] theorem reply_outLen : (reply r s).outLen = s.outLen := rfl
@[simp] theorem reply_code : (reply r s).code = s.code := rfl
@[simp] theorem reply_len : (reply r s).len = s.len := rfl
@[simp] theorem reply_img0 : (reply r s).img0 = s.img0 := rfl
@[simp] theorem reply_img1 : (reply r s).img1 = s.img1 := rfl
@[simp] theorem reply_pay : (reply r s).pay = s.pay := rfl
@[simp] theorem reply_out : (reply r s).out = s.out := rfl
@[simp] theorem reply_caps : (reply r s).caps = s.caps := rfl
@[simp] theorem reply_host : (reply r s).host = s.host := rfl
@[simp] theorem reply_replies : (reply r s).replies = r :: s.replies := rfl
@[simp] theorem reply_bank (k : Bit) : (reply r s).bank k = s.bank k := rfl

end

/-! ### resetRegisters -/

section
variable (s : State)

@[simp] theorem resetRegisters_phase : (resetRegisters s).phase = .idle := rfl
@[simp] theorem resetRegisters_rCh : (resetRegisters s).rCh = 0 := rfl
@[simp] theorem resetRegisters_rSel : (resetRegisters s).rSel = 0 := rfl
@[simp] theorem resetRegisters_rW : (resetRegisters s).rW = 0 := rfl
@[simp] theorem resetRegisters_rH : (resetRegisters s).rH = 0 := rfl
@[simp] theorem resetRegisters_rN : (resetRegisters s).rN = 0 := rfl
@[simp] theorem resetRegisters_x : (resetRegisters s).x = 0 := rfl
@[simp] theorem resetRegisters_y : (resetRegisters s).y = 0 := rfl
@[simp] theorem resetRegisters_byteIdx : (resetRegisters s).byteIdx = 0 := rfl
@[simp] theorem resetRegisters_bitIdx : (resetRegisters s).bitIdx = 0 := rfl
@[simp] theorem resetRegisters_acc : (resetRegisters s).acc = 0 := rfl
@[simp] theorem resetRegisters_n : (resetRegisters s).n = 0 := rfl
@[simp] theorem resetRegisters_bitsRead : (resetRegisters s).bitsRead = 0 := rfl
@[simp] theorem resetRegisters_outLen : (resetRegisters s).outLen = 0 := rfl
@[simp] theorem resetRegisters_code : (resetRegisters s).code = .ok := rfl
@[simp] theorem resetRegisters_len : (resetRegisters s).len = 0 := rfl
@[simp] theorem resetRegisters_img0 : (resetRegisters s).img0 = s.img0 := rfl
@[simp] theorem resetRegisters_img1 : (resetRegisters s).img1 = s.img1 := rfl
@[simp] theorem resetRegisters_pay : (resetRegisters s).pay = s.pay := rfl
@[simp] theorem resetRegisters_out : (resetRegisters s).out = s.out := rfl
@[simp] theorem resetRegisters_caps : (resetRegisters s).caps = s.caps := rfl
@[simp] theorem resetRegisters_host : (resetRegisters s).host = s.host := rfl
@[simp] theorem resetRegisters_replies : (resetRegisters s).replies = s.replies := rfl
@[simp] theorem resetRegisters_bank (k : Bit) : (resetRegisters s).bank k = s.bank k := rfl

end

end Sys2Proof.Machine
end

