-- ==== Sys2Proof/Laws/Memory.lean ====
section
/-!
SUPPORT. The laws of memory: a read after a write, the canonical form, the image banks of a state, and what each access of the block
can do.
-/

namespace Sys2Proof.Machine

variable {w : Nat}

/-! ### Read after write (20_memory.md R65, R70) -/

@[simp] theorem Memory.read_write_same (m : Memory w) (i : Nat) (v : BitVec w) : Memory.read (Memory.write m i v) i = some v := by
  induction m with
  | nil => simp [Memory.write, Memory.read]
  | cons c m ih =>
    by_cases h : c.1 < i
    · simp [Memory.write, Memory.read, h, Nat.ne_of_lt h, ih]
    · by_cases h' : c.1 = i <;> simp [Memory.write, Memory.read, h, h']

theorem Memory.read_write_other (m : Memory w) (i j : Nat) (v : BitVec w) (hij : j ≠ i) :
    Memory.read (Memory.write m i v) j = Memory.read m j := by
  induction m with
  | nil => simp [Memory.write, Memory.read, hij.symm]
  | cons c m ih =>
    by_cases h : c.1 < i
    · simp [Memory.write, Memory.read, h, ih]
    · by_cases h' : c.1 = i
      · simp [Memory.write, Memory.read, h', hij.symm]
      · simp [Memory.write, Memory.read, h, h', hij.symm]

theorem Memory.read_write (m : Memory w) (i j : Nat) (v : BitVec w) :
    Memory.read (Memory.write m i v) j = if j = i then some v else Memory.read m j := by
  split
  · subst_vars; simp
  · exact Memory.read_write_other m i j v ‹_›

/-! ### The canonical form -/

theorem Memory.mem_write {m : Memory w} {i : Nat} {v : BitVec w} {c : Nat × BitVec w} (h : c ∈ Memory.write m i v) :
    c = (i, v) ∨ c ∈ m := by
  induction m with
  | nil => simpa [Memory.write] using h
  | cons d m ih =>
    simp only [Memory.write] at h
    split at h
    · rcases List.mem_cons.1 h with rfl | h
      · simp
      · rcases ih h with h | h <;> simp [h]
    · split at h <;> simp_all
      tauto

theorem Memory.write_wf {m : Memory w} (i : Nat) (v : BitVec w) (h : Memory.wf m) : Memory.wf (Memory.write m i v) := by
  induction m with
  | nil => simp [Memory.write]
  | cons c m ih =>
    obtain ⟨hc, hm⟩ := List.pairwise_cons.1 h
    simp only [Memory.write]
    split
    · refine List.pairwise_cons.2 ⟨fun d hd => ?_, ih hm⟩
      rcases Memory.mem_write hd with rfl | hd
      · assumption
      · exact hc d hd
    · split
      · subst_vars; exact List.pairwise_cons.2 ⟨hc, hm⟩
      · refine List.pairwise_cons.2 ⟨fun d hd => ?_, h⟩
        rcases List.mem_cons.1 hd with rfl | hd
        · simp; omega
        · have := hc d hd; simp; omega

theorem Memory.write_below {m : Memory w} {cap i : Nat} (v : BitVec w) (hi : i < cap) (h : Memory.below cap m) :
    Memory.below cap (Memory.write m i v) := by
  intro c hc
  rcases Memory.mem_write hc with rfl | hc
  · exact hi
  · exact h c hc

/-! ### The image banks of a state -/

theorem bit_cases (b : Bit) : b = 0 ∨ b = 1 := by revert b; decide

@[simp] theorem State.bank_setBank_same (s : State) (b : Bit) (m : Memory 32) : (s.setBank b m).bank b = m := by
  unfold State.bank State.setBank; split <;> simp_all

theorem State.bank_setBank_other (s : State) (b b' : Bit) (m : Memory 32) (h : b' ≠ b) : (s.setBank b m).bank b' = s.bank b' := by
  unfold State.bank State.setBank
  rcases bit_cases b with rfl | rfl <;> rcases bit_cases b' with rfl | rfl <;> simp_all

/-- The destination bank of `ENC` is never its source bank (R60). -/
theorem other_bank_ne (b : Bit) : b ≠ 1 - b := by revert b; decide

@[simp] theorem State.source_setBank_other (s : State) (b : Bit) (m : Memory 32) : (s.setBank (1 - b) m).bank b = s.bank b :=
  State.bank_setBank_other s _ _ m (other_bank_ne b)

/-! ### What each access of the block can do -/

theorem readPixel_ok_iff {s : State} {b : Bit} {i : Nat} {p : Pixel} :
    readPixel s b i = .ok p ↔ i < s.caps.imgCap ∧ Memory.read (s.bank b) i = some p := by
  unfold readPixel
  split
  · split <;> simp_all
  · simp_all

theorem readPayload_ok_iff {s : State} {j : Nat} {v : Byte} :
    readPayload s j = .ok v ↔ j < s.caps.payCap ∧ Memory.read s.pay j = some v := by
  unfold readPayload
  split
  · split <;> simp_all
  · simp_all

theorem writePixel_ok_iff {s t : State} {b : Bit} {i : Nat} {v : Pixel} :
    writePixel s b i v = .ok t ↔ i < s.caps.imgCap ∧ t = s.setBank b (Memory.write (s.bank b) i v) := by
  unfold writePixel
  split <;> simp_all [eq_comm]

theorem writeOutput_ok_iff {s t : State} {j : Nat} {v : Byte} :
    writeOutput s j v = .ok t ↔ j < s.caps.outCap ∧ t = s.setOut (Memory.write s.out j v) := by
  unfold writeOutput
  split <;> simp_all [eq_comm]

theorem readPixel_error {s : State} {b : Bit} {i : Nat} {r : Fault} (h : readPixel s b i = .error r) :
    (r = .unwrittenPixel b i ∧ i < s.caps.imgCap ∧ Memory.read (s.bank b) i = none) ∨
      (r = .blockIndexOutOfRange i ∧ s.caps.imgCap ≤ i) := by
  unfold readPixel at h
  split at h
  · split at h <;> simp_all
  · simp_all

theorem readPayload_error {s : State} {j : Nat} {r : Fault} (h : readPayload s j = .error r) :
    (r = .unwrittenPayload j ∧ j < s.caps.payCap ∧ Memory.read s.pay j = none) ∨
      (r = .blockIndexOutOfRange j ∧ s.caps.payCap ≤ j) := by
  unfold readPayload at h
  split at h
  · split at h <;> simp_all
  · simp_all

theorem writePixel_error {s : State} {b : Bit} {i : Nat} {v : Pixel} {r : Fault} (h : writePixel s b i v = .error r) :
    r = .blockIndexOutOfRange i ∧ s.caps.imgCap ≤ i := by
  unfold writePixel at h
  split at h <;> simp_all

theorem writeOutput_error {s : State} {j : Nat} {v : Byte} {r : Fault} (h : writeOutput s j v = .error r) :
    r = .blockIndexOutOfRange j ∧ s.caps.outCap ≤ j := by
  unfold writeOutput at h
  split at h <;> simp_all

/-! ### From an access to the outcome of a step -/

theorem settle_next_iff {e : Except Fault State} {t : State} : settle e = .next t ↔ e = .ok t := by
  cases e <;> simp [settle]

theorem settle_fault_iff {e : Except Fault State} {r : Fault} : settle e = .fault r ↔ e = .error r := by
  cases e <;> simp [settle]

theorem settle_ne_refused (e : Except Fault State) (r : Refusal) : settle e ≠ .refused r := by
  cases e <;> simp [settle]

end Sys2Proof.Machine
end

