-- ==== Sys2Proof/Laws/Operands.lean ====
section
/-!
SUPPORT. What each test over the operands and the cursor says, in numbers, and the bounds the register widths give.
-/

namespace Sys2Proof.Machine

theorem npix_eq (w h : BitVec 16) : npix w h = w.toNat * h.toNat := rfl

/-- 16 x 16 bits keep `W * H < 2^32` (D6). -/
theorem npix_lt (w h : BitVec 16) : npix w h < 2 ^ 32 := by
  have hw := w.isLt
  have hh := h.isLt
  unfold npix
  nlinarith

theorem encAdmissible_iff (w h : BitVec 16) (n : BitVec 32) (c : Caps) :
    encAdmissible w h n c = true ↔ npix w h ≤ c.imgCap ∧ payloadNeed w h n ≤ c.payCap := by
  simp only [encAdmissible, Bool.and_eq_true, decide_eq_true_eq]

theorem decAdmissible_iff (w h : BitVec 16) (n : BitVec 32) (c : Caps) :
    decAdmissible w h n c = true ↔ npix w h ≤ c.imgCap ∧ outputNeed w h n ≤ c.outCap := by
  simp only [decAdmissible, Bool.and_eq_true, decide_eq_true_eq]

theorem exhausted_iff (s : State) : exhausted s = true ↔ s.rW = 0 ∨ s.rH.toNat ≤ s.y.toNat := by
  simp only [exhausted, Bool.or_eq_true, beq_iff_eq, decide_eq_true_eq]

theorem not_exhausted_iff (s : State) : exhausted s = false ↔ s.rW ≠ 0 ∧ s.y.toNat < s.rH.toNat := by
  rw [← Bool.not_eq_true, exhausted_iff, not_or, Nat.not_le]

theorem rowGoesOn_iff (s : State) : rowGoesOn s = true ↔ s.x.toNat + 1 < s.rW.toNat := by
  simp only [rowGoesOn, decide_eq_true_eq]

theorem payloadRemains_iff (s : State) : payloadRemains s = true ↔ s.byteIdx.toNat < s.rN.toNat := by
  simp only [payloadRemains, decide_eq_true_eq]

theorem not_payloadRemains_iff (s : State) : payloadRemains s = false ↔ s.rN.toNat ≤ s.byteIdx.toNat := by
  rw [← Bool.not_eq_true, payloadRemains_iff, Nat.not_lt]

theorem countReached_iff (s : State) : countReached s = true ↔ s.bitsRead = s.rN := by
  simp only [countReached, beq_iff_eq]

theorem not_countReached_iff (s : State) : countReached s = false ↔ s.bitsRead ≠ s.rN := by
  rw [← Bool.not_eq_true, countReached_iff]

/-- The cursor's tests depend on the operands and the cursor alone. -/
theorem idx_congr {s t : State} (hw : t.rW = s.rW) (hx : t.x = s.x) (hy : t.y = s.y) : idx t = idx s := by
  simp only [idx, hw, hx, hy]

theorem exhausted_congr {s t : State} (hw : t.rW = s.rW) (hh : t.rH = s.rH) (hy : t.y = s.y) : exhausted t = exhausted s := by
  simp only [exhausted, hw, hh, hy]

theorem rowGoesOn_congr {s t : State} (hw : t.rW = s.rW) (hx : t.x = s.x) : rowGoesOn t = rowGoesOn s := by
  simp only [rowGoesOn, hw, hx]

end Sys2Proof.Machine
end

