-- ==== Sys2Proof/Laws/Block.lean ====
section
/-!
SUPPORT. What each block step, each host operation, exec and step can do, said once: an equation where it goes on, and an inversion
lemma that lists every case.
-/

namespace Sys2Proof.Machine

/-! ### The cursor and the counters, case by case -/

/-- `advance` inside a row (R134). -/
theorem advance_in_row {s : State} (h : s.x.toNat + 1 < s.rW.toNat) :
    (advance s).x.toNat = s.x.toNat + 1 ∧ (advance s).y = s.y := by
  have hw := s.rW.isLt
  rw [advance_x, advance_y, if_pos ((rowGoesOn_iff s).2 h), if_pos ((rowGoesOn_iff s).2 h)]
  refine ⟨?_, rfl⟩
  rw [BitVec.toNat_add, show (1 : BitVec 16).toNat = 1 from rfl, Nat.mod_eq_of_lt (by omega)]

/-- `advance` at a row end (R134). -/
theorem advance_at_row_end {s : State} (h : s.rW.toNat ≤ s.x.toNat + 1) (hy : s.y.toNat < s.rH.toNat) :
    (advance s).x = 0 ∧ (advance s).y.toNat = s.y.toNat + 1 := by
  have hh := s.rH.isLt
  have hn : ¬ rowGoesOn s = true := by rw [rowGoesOn_iff]; omega
  rw [advance_x, advance_y, if_neg hn, if_neg hn]
  refine ⟨rfl, ?_⟩
  rw [BitVec.toNat_add, show (1 : BitVec 16).toNat = 1 from rfl, Nat.mod_eq_of_lt (by omega)]

/-- The encoder's counters at the eighth bit of a byte (R135). -/
theorem countBit_wrap {s : State} (h : s.bitIdx = 7) : (countBit s).bitIdx = 0 ∧ (countBit s).byteIdx = s.byteIdx + 1 := by
  rw [countBit_bitIdx, countBit_byteIdx, if_pos h, if_pos h]
  exact ⟨rfl, rfl⟩

/-- The encoder's counters inside a byte (R135). -/
theorem countBit_next {s : State} (h : s.bitIdx ≠ 7) :
    (countBit s).bitIdx.toNat = s.bitIdx.toNat + 1 ∧ (countBit s).byteIdx = s.byteIdx := by
  rw [countBit_bitIdx, countBit_byteIdx, if_neg h, if_neg h]
  refine ⟨?_, rfl⟩
  revert h
  generalize s.bitIdx = k
  revert k
  decide

/-! ### The encoder -/

/-- The state after an embed step that wrote the pixel `q` (R135). -/
def afterEmbed (s : State) (p : Pixel) (pb : Byte) : State :=
  advance (countBit (s.setBank (1 - s.rSel)
    (Memory.write (s.bank (1 - s.rSel)) (idx s) (embed p s.rCh (bitAt pb s.bitIdx)))))

/-- The state after a copy step (R135). -/
def afterCopy (s : State) (p : Pixel) : State :=
  advance (s.setBank (1 - s.rSel) (Memory.write (s.bank (1 - s.rSel)) (idx s) p))

theorem encPixel_embed {s : State} {p : Pixel} {pb : Byte} (hi : idx s < s.caps.imgCap)
    (hp : Memory.read (s.bank s.rSel) (idx s) = some p) (hr : payloadRemains s = true)
    (hj : s.byteIdx.toNat < s.caps.payCap) (hb : Memory.read s.pay s.byteIdx.toNat = some pb) :
    encPixel s = .ok (afterEmbed s p pb) := by
  simp [encPixel, encEmbed, readPixel_ok_iff.2 ⟨hi, hp⟩, readPayload_ok_iff.2 ⟨hj, hb⟩, hr,
    writePixel_ok_iff.2 ⟨hi, rfl⟩, afterEmbed, bind, Except.bind, pure, Except.pure]

theorem encPixel_copy {s : State} {p : Pixel} (hi : idx s < s.caps.imgCap)
    (hp : Memory.read (s.bank s.rSel) (idx s) = some p) (hr : payloadRemains s = false) :
    encPixel s = .ok (afterCopy s p) := by
  simp [encPixel, encCopy, readPixel_ok_iff.2 ⟨hi, hp⟩, hr,
    writePixel_ok_iff.2 ⟨hi, rfl⟩, afterCopy, bind, Except.bind, pure, Except.pure]

/-- Everything an `ENC` pixel step that goes on can do (R135). -/
theorem encPixel_ok_cases {s t : State} (h : encPixel s = .ok t) :
    ∃ p, idx s < s.caps.imgCap ∧ Memory.read (s.bank s.rSel) (idx s) = some p ∧
      ((payloadRemains s = true ∧ ∃ pb, s.byteIdx.toNat < s.caps.payCap ∧ Memory.read s.pay s.byteIdx.toNat = some pb ∧
          t = afterEmbed s p pb) ∨
        (payloadRemains s = false ∧ t = afterCopy s p)) := by
  cases hp : readPixel s s.rSel (idx s) with
  | error r => simp [encPixel, hp, bind, Except.bind] at h
  | ok p =>
    obtain ⟨hi, hp'⟩ := readPixel_ok_iff.1 hp
    refine ⟨p, hi, hp', ?_⟩
    cases hr : payloadRemains s with
    | false =>
      rw [encPixel_copy hi hp' hr] at h
      exact .inr ⟨rfl, (Except.ok.inj h).symm⟩
    | true =>
      cases hb : readPayload s s.byteIdx.toNat with
      | error r => simp [encPixel, encEmbed, hp, hr, hb, bind, Except.bind] at h
      | ok pb =>
        obtain ⟨hj, hb'⟩ := readPayload_ok_iff.1 hb
        rw [encPixel_embed hi hp' hr hj hb'] at h
        exact .inl ⟨rfl, pb, hj, hb', (Except.ok.inj h).symm⟩

/-- Every way an `ENC` pixel step can stop (R75, R67). -/
theorem encPixel_error_cases {s : State} {r : Fault} (h : encPixel s = .error r) :
    (r = .unwrittenPixel s.rSel (idx s) ∧ Memory.read (s.bank s.rSel) (idx s) = none) ∨
      (r = .unwrittenPayload s.byteIdx.toNat ∧ payloadRemains s = true ∧ Memory.read s.pay s.byteIdx.toNat = none) ∨
      (r = .blockIndexOutOfRange (idx s) ∧ s.caps.imgCap ≤ idx s) ∨
      (r = .blockIndexOutOfRange s.byteIdx.toNat ∧ payloadRemains s = true ∧ s.caps.payCap ≤ s.byteIdx.toNat) := by
  cases hp : readPixel s s.rSel (idx s) with
  | error r' =>
    obtain rfl : r' = r := by simpa [encPixel, hp, bind, Except.bind] using h
    rcases readPixel_error hp with h | h <;> simp [h]
  | ok p =>
    obtain ⟨hi, hp'⟩ := readPixel_ok_iff.1 hp
    cases hr : payloadRemains s with
    | false => rw [encPixel_copy hi hp' hr] at h; cases h
    | true =>
      cases hb : readPayload s s.byteIdx.toNat with
      | ok pb =>
        obtain ⟨hj, hb'⟩ := readPayload_ok_iff.1 hb
        rw [encPixel_embed hi hp' hr hj hb'] at h; cases h
      | error r' =>
        obtain rfl : r' = r := by simpa [encPixel, encEmbed, hp, hr, hb, bind, Except.bind] using h
        rcases readPayload_error hb with h | h <;> simp [h]

/-! ### The decoder -/

/-- The state after a `DEC` pixel step that read `p` and did not fill a byte (R153). -/
def afterGather (s : State) (p : Pixel) : State := advance (decGather (shiftIn s.acc (hiddenBit p s.rCh)) s)

/-- The state after a `DEC` pixel step that read `p` as the eighth bit of a byte (R153). -/
def afterEmit (s : State) (p : Pixel) : State :=
  advance (countByte (emptyAcc (s.setOut (Memory.write s.out s.outLen.toNat (shiftIn s.acc (hiddenBit p s.rCh))))))

/-- The state after a normal completion that appended the padded byte (R154). -/
def afterPad (s : State) : State :=
  complete .ok (s.outLen + 1) (countByte (s.setOut (Memory.write s.out s.outLen.toNat (padded s.acc s.n))))

theorem decPixel_gather {s : State} {p : Pixel} (hi : idx s < s.caps.imgCap)
    (hp : Memory.read (s.bank s.rSel) (idx s) = some p) (hn : s.n ≠ 7) : decPixel s = .ok (afterGather s p) := by
  simp only [decPixel, readPixel_ok_iff.2 ⟨hi, hp⟩, if_neg hn, afterGather, bind, Except.bind, pure, Except.pure]

theorem decPixel_emit {s : State} {p : Pixel} (hi : idx s < s.caps.imgCap)
    (hp : Memory.read (s.bank s.rSel) (idx s) = some p) (hn : s.n = 7) (ho : s.outLen.toNat < s.caps.outCap) :
    decPixel s = .ok (afterEmit s p) := by
  simp [decPixel, decEmit, readPixel_ok_iff.2 ⟨hi, hp⟩, hn, writeOutput_ok_iff.2 ⟨ho, rfl⟩, afterEmit, bind, Except.bind,
    pure, Except.pure]

/-- Everything a `DEC` pixel step that goes on can do (R153). -/
theorem decPixel_ok_cases {s t : State} (h : decPixel s = .ok t) :
    ∃ p, idx s < s.caps.imgCap ∧ Memory.read (s.bank s.rSel) (idx s) = some p ∧
      ((s.n = 7 ∧ s.outLen.toNat < s.caps.outCap ∧ t = afterEmit s p) ∨ (s.n ≠ 7 ∧ t = afterGather s p)) := by
  cases hp : readPixel s s.rSel (idx s) with
  | error r => simp [decPixel, hp, bind, Except.bind] at h
  | ok p =>
    obtain ⟨hi, hp'⟩ := readPixel_ok_iff.1 hp
    refine ⟨p, hi, hp', ?_⟩
    by_cases hn : s.n = 7
    · by_cases ho : s.outLen.toNat < s.caps.outCap
      · rw [decPixel_emit hi hp' hn ho] at h
        exact .inl ⟨hn, ho, (Except.ok.inj h).symm⟩
      · simp [decPixel, decEmit, hp, hn, writeOutput, ho, bind, Except.bind] at h
    · rw [decPixel_gather hi hp' hn] at h
      exact .inr ⟨hn, (Except.ok.inj h).symm⟩

/-- Every way a `DEC` pixel step can stop (R75, R67). -/
theorem decPixel_error_cases {s : State} {r : Fault} (h : decPixel s = .error r) :
    (r = .unwrittenPixel s.rSel (idx s) ∧ Memory.read (s.bank s.rSel) (idx s) = none) ∨
      (r = .blockIndexOutOfRange (idx s) ∧ s.caps.imgCap ≤ idx s) ∨
      (r = .blockIndexOutOfRange s.outLen.toNat ∧ s.n = 7 ∧ s.caps.outCap ≤ s.outLen.toNat) := by
  cases hp : readPixel s s.rSel (idx s) with
  | error r' =>
    obtain rfl : r' = r := by simpa [decPixel, hp, bind, Except.bind] using h
    rcases readPixel_error hp with h | h <;> simp [h]
  | ok p =>
    obtain ⟨hi, hp'⟩ := readPixel_ok_iff.1 hp
    by_cases hn : s.n = 7
    · by_cases ho : s.outLen.toNat < s.caps.outCap
      · rw [decPixel_emit hi hp' hn ho] at h; cases h
      · simp [decPixel, decEmit, hp, hn, writeOutput, ho, bind, Except.bind] at h
        exact .inr (.inr ⟨h.symm, hn, Nat.le_of_not_lt ho⟩)
    · rw [decPixel_gather hi hp' hn] at h; cases h

theorem decComplete_whole {s : State} (hn : s.n = 0) : decComplete s = .ok (complete .ok s.outLen s) := by
  simp [decComplete, hn]

theorem decComplete_pad {s : State} (hn : s.n ≠ 0) (ho : s.outLen.toNat < s.caps.outCap) :
    decComplete s = .ok (afterPad s) := by
  simp only [decComplete, if_neg hn, writeOutput_ok_iff.2 ⟨ho, rfl⟩, afterPad, bind, Except.bind, pure, Except.pure,
    setOut_outLen]

/-- Everything a `DEC` normal completion step that goes on can do (R154). -/
theorem decComplete_ok_cases {s t : State} (h : decComplete s = .ok t) :
    (s.n = 0 ∧ t = complete .ok s.outLen s) ∨ (s.n ≠ 0 ∧ s.outLen.toNat < s.caps.outCap ∧ t = afterPad s) := by
  by_cases hn : s.n = 0
  · rw [decComplete_whole hn] at h
    exact .inl ⟨hn, (Except.ok.inj h).symm⟩
  · by_cases ho : s.outLen.toNat < s.caps.outCap
    · rw [decComplete_pad hn ho] at h
      exact .inr ⟨hn, ho, (Except.ok.inj h).symm⟩
    · simp only [decComplete, if_neg hn, writeOutput, if_neg ho, bind, Except.bind] at h
      cases h

theorem decComplete_error_cases {s : State} {r : Fault} (h : decComplete s = .error r) :
    r = .blockIndexOutOfRange s.outLen.toNat ∧ s.n ≠ 0 ∧ s.caps.outCap ≤ s.outLen.toNat := by
  by_cases hn : s.n = 0
  · rw [decComplete_whole hn] at h; cases h
  · by_cases ho : s.outLen.toNat < s.caps.outCap
    · rw [decComplete_pad hn ho] at h; cases h
    · simp only [decComplete, if_neg hn, writeOutput, if_neg ho, bind, Except.bind] at h
      exact ⟨(Except.error.inj h).symm, hn, Nat.le_of_not_lt ho⟩

/-! ### The one enabled block step -/

/-- Everything an `ENC` block step that goes on can do (R135, R136). -/
theorem encStep_ok_cases {s t : State} (h : encStep s = .ok t) :
    (exhausted s = true ∧ t = encComplete s) ∨ (exhausted s = false ∧ encPixel s = .ok t) := by
  unfold encStep at h
  split at h
  · exact .inl ⟨‹_›, (Except.ok.inj h).symm⟩
  · exact .inr ⟨Bool.eq_false_iff.2 ‹_›, h⟩

/-- Everything a `DEC` block step that goes on can do (R152). -/
theorem decStep_ok_cases {s t : State} (h : decStep s = .ok t) :
    (countReached s = true ∧ decComplete s = .ok t) ∨
      (countReached s = false ∧ exhausted s = true ∧ t = decOverrun s) ∨
      (countReached s = false ∧ exhausted s = false ∧ decPixel s = .ok t) := by
  unfold decStep at h
  split at h
  · exact .inl ⟨‹_›, h⟩
  · split at h
    · exact .inr (.inl ⟨by simpa using ‹¬countReached s = true›, ‹_›, (Except.ok.inj h).symm⟩)
    · exact .inr (.inr ⟨by simpa using ‹¬countReached s = true›, by simpa using ‹¬exhausted s = true›, h⟩)

theorem blockStep_idle {s : State} (h : s.phase = .idle) : blockStep s = .next s := by simp [blockStep, h]

theorem blockStep_encRun {s : State} (h : s.phase = .encRun) : blockStep s = settle (encStep s) := by simp [blockStep, h]

theorem blockStep_decRun {s : State} (h : s.phase = .decRun) : blockStep s = settle (decStep s) := by simp [blockStep, h]

/-- While the cursor is on a pixel, the `ENC` step is the pixel step. -/
theorem encStep_pixel {s : State} (h : exhausted s = false) : encStep s = encPixel s := by simp [encStep, h]

/-- After the last pixel, the `ENC` step is the completion step. -/
theorem encStep_complete {s : State} (h : exhausted s = true) : encStep s = .ok (encComplete s) := by simp [encStep, h]

/-- At the bit count, the `DEC` step is the normal completion step (R152). -/
theorem decStep_complete {s : State} (h : countReached s = true) : decStep s = decComplete s := by simp [decStep, h]

/-- Past the last pixel with bits still wanted, the `DEC` step is the overrun completion step (R152). -/
theorem decStep_overrun {s : State} (h : countReached s = false) (he : exhausted s = true) : decStep s = .ok (decOverrun s) := by
  simp [decStep, h, he]

/-- On a pixel with bits still wanted, the `DEC` step is the pixel step (R152). -/
theorem decStep_pixel {s : State} (h : countReached s = false) (he : exhausted s = false) : decStep s = decPixel s := by
  simp [decStep, h, he]

/-! ### exec -/

/-- In `IDLE` a command starts or is refused (R181). -/
theorem exec_idle {s : State} (h : s.phase = .idle) (i : Instr) :
    exec i s = .next (match i with
      | .enc ch sel w hh n => start .encRun (encAdmissible w hh n s.caps) ch sel w hh n s
      | .dec ch sel w hh n => start .decRun (decAdmissible w hh n s.caps) ch sel w hh n s) := by
  cases i <;> simp [exec, execEnc, execDec, h]

/-- While a command runs, whatever is presented, the step is the running command's block step (R183). -/
theorem exec_busy {s : State} (h : s.phase ≠ .idle) (i : Instr) : exec i s = blockStep s := by
  cases i <;> simp [exec, execEnc, execDec, h]

theorem exec_encRun {s : State} (h : s.phase = .encRun) (i : Instr) : exec i s = settle (encStep s) := by
  rw [exec_busy (by simp [h]), blockStep_encRun h]

theorem exec_decRun {s : State} (h : s.phase = .decRun) (i : Instr) : exec i s = settle (decStep s) := by
  rw [exec_busy (by simp [h]), blockStep_decRun h]

theorem exec_ne_refused (i : Instr) (s : State) (r : Refusal) : exec i s ≠ .refused r := by
  cases hp : s.phase with
  | idle => rw [exec_idle hp]; simp
  | encRun => rw [exec_encRun hp]; exact settle_ne_refused _ _
  | decRun => rw [exec_decRun hp]; exact settle_ne_refused _ _

/-- The three ways a start can end (R181). -/
theorem start_cases (ph : Phase) (fits : Bool) (ch : BitVec 2) (sel : Bit) (w h : BitVec 16) (n : BitVec 32) (s : State) :
    (ch = 3 ∧ start ph fits ch sel w h n s = refuse .illegalCommand s) ∨
      (ch ≠ 3 ∧ fits = false ∧ start ph fits ch sel w h n s = refuse .rangeError s) ∨
      (ch ≠ 3 ∧ fits = true ∧ start ph fits ch sel w h n s = accept ph ch sel w h n s) := by
  unfold start
  by_cases hc : ch = 3
  · exact .inl ⟨hc, if_pos hc⟩
  · rw [if_neg hc]
    cases fits
    · exact .inr (.inl ⟨hc, rfl, rfl⟩)
    · exact .inr (.inr ⟨hc, rfl, rfl⟩)

/-! ### The host's memory accesses (R185): below the capacity they are taken, at or above it there is no step (X6) -/

theorem hostReadPixel_ok {s : State} (b : Bit) {i : Index} (h : i.toNat < s.caps.imgCap) :
    hostReadPixel b i s = .ok (reply (.pixel (hostPixel s b i)) s) := if_pos h

theorem hostReadPixel_stuck {s : State} (b : Bit) {i : Index} (h : s.caps.imgCap ≤ i.toNat) :
    hostReadPixel b i s = .error (.hostIndexOutOfRange i.toNat) := if_neg (Nat.not_lt.2 h)

theorem hostReadByte_ok {s : State} {m : ByteSpace} {i : Index} (h : i.toNat < byteCap s m) :
    hostReadByte m i s = .ok (reply (.byte (hostByte s m i)) s) := if_pos h

theorem hostReadByte_stuck {s : State} {m : ByteSpace} {i : Index} (h : byteCap s m ≤ i.toNat) :
    hostReadByte m i s = .error (.hostIndexOutOfRange i.toNat) := if_neg (Nat.not_lt.2 h)

theorem hostWritePixel_ok {s : State} (b : Bit) {i : Index} (v : Pixel) (h : i.toNat < s.caps.imgCap) :
    hostWritePixel b i v s = .ok (s.setBank b (Memory.write (s.bank b) i.toNat v)) := if_pos h

theorem hostWritePixel_stuck {s : State} (b : Bit) {i : Index} (v : Pixel) (h : s.caps.imgCap ≤ i.toNat) :
    hostWritePixel b i v s = .error (.hostIndexOutOfRange i.toNat) := if_neg (Nat.not_lt.2 h)

theorem hostWriteByte_ok {s : State} {m : ByteSpace} {i : Index} (v : Byte) (h : i.toNat < byteCap s m) :
    hostWriteByte m i v s = .ok (s.setBytes m (Memory.write (s.bytes m) i.toNat v)) := if_pos h

theorem hostWriteByte_stuck {s : State} {m : ByteSpace} {i : Index} (v : Byte) (h : byteCap s m ≤ i.toNat) :
    hostWriteByte m i v s = .error (.hostIndexOutOfRange i.toNat) := if_neg (Nat.not_lt.2 h)

/-- A host read returns the element where it is written. -/
theorem hostPixel_written {s : State} {b : Bit} {i : Index} {p : Pixel} (h : Memory.read (s.bank b) i.toNat = some p) :
    hostPixel s b i = p := by simp [hostPixel, h]

theorem hostByte_written {s : State} {m : ByteSpace} {i : Index} {v : Byte} (h : Memory.read (s.bytes m) i.toNat = some v) :
    hostByte s m i = v := by simp [hostByte, h]

/-! ### step -/

/-- The block's turn in a busy state is the running command's block step. -/
theorem blockTurn_eq (s : State) : blockTurn s = blockStep s := by
  unfold blockTurn running
  cases h : s.phase <;> simp [blockStep, h, exec_encRun, exec_decRun]

/-- While the host makes no move and a command runs, a step is the block's. -/
theorem step_hostWaits {s : State} (hb : s.phase ≠ .idle) (hw : HostWaits s) : step s = blockStep s := by
  unfold step turn
  split
  · exact blockTurn_eq s
  · rename_i m rest hm
    have : heldWhileBusy m = true := hw m (by simp [hm])
    simp [hb, this, blockTurn_eq]

/-- A move that is not held is taken. -/
theorem step_taken {s : State} {m : HostMove} {rest : List HostMove} (hm : s.host = m :: rest)
    (h : s.phase = .idle ∨ heldWhileBusy m = false) : step s = hostStep m (setHost rest s) := by
  unfold step turn
  rcases h with h | h <;> simp [hm, h]

/-- Everything a step can be (R6): the block's step with the host's moves as they are, or one host move. -/
theorem step_cases (s : State) :
    (HostWaits s ∧ (s.phase ≠ .idle ∨ s.host = []) ∧ step s = blockStep s) ∨
      ∃ m rest, s.host = m :: rest ∧ (s.phase = .idle ∨ heldWhileBusy m = false) ∧
        step s = hostStep m (setHost rest s) := by
  cases hm : s.host with
  | nil =>
    refine .inl ⟨by simp [HostWaits, hm], .inr rfl, ?_⟩
    simp [step, turn, hm, blockTurn_eq]
  | cons m rest =>
    by_cases h : s.phase = .idle ∨ heldWhileBusy m = false
    · exact .inr ⟨m, rest, rfl, h, step_taken hm h⟩
    · simp only [not_or, Bool.not_eq_false] at h
      have hw : HostWaits s := by simp [HostWaits, hm, h.2]
      exact .inl ⟨hw, .inl h.1, step_hostWaits h.1 hw⟩

theorem runSteps_succ (k : Nat) (s : State) :
    runSteps (k + 1) s = match step s with
      | .next t => runSteps k t
      | .fault r => .fault r
      | .refused r => .refused r := rfl

theorem runSteps_succ_next {k : Nat} {s t : State} (h : step s = .next t) : runSteps (k + 1) s = runSteps k t := by
  rw [runSteps_succ, h]

/-- Two runs one after the other are one run. -/
theorem runSteps_add {j k : Nat} {s t : State} (h : runSteps j s = .next t) : runSteps (j + k) s = runSteps k t := by
  induction j generalizing s with
  | zero => simp only [runSteps, Host.Outcome.next.injEq] at h; simp [h]
  | succ j ih =>
    rw [Nat.succ_add, runSteps_succ]
    rw [runSteps_succ] at h
    cases hs : step s with
    | next u => simp only [hs] at h; exact ih h
    | fault r => simp [hs] at h
    | refused r => simp [hs] at h

end Sys2Proof.Machine
end

