-- ==== Sys2Proof/Laws/PerInstr.lean ====
section
/-!
SUPPORT. Statements made once per constructor of Instr. `TableRow`: a command's descriptor matches its row of
spec/opcode_table.json under the row's mask (30_encoding.md R93), and where the command is well formed the descriptor is legal.
-/

namespace Sys2Proof

/-- The mask of both rows of the opcode table (R93): the `OP` and `RSV` bits. -/
def tableMask : Descriptor := 0x0000000000000000FFFFF8FF

/-- The `match` value of a command's row of the opcode table. -/
def tableMatch : Instr → Descriptor
  | .enc _ _ _ _ _ => 0x000000000000000000000001
  | .dec _ _ _ _ _ => 0x000000000000000000000002

/-- The descriptor has its row's fixed bits, and its `CH` field is the reserved value exactly where the command is ill formed. -/
def Laws.TableRow.Statement (i : Instr) : Prop :=
  encode i &&& tableMask = tableMatch i ∧ (i.wf = true ↔ fieldCh (encode i) ≠ 3)

/-- The channel field of packed fields. -/
theorem fieldCh_packFields (op : BitVec 8) (ch : BitVec 2) (sel : Bit) (w h : BitVec 16) (n : BitVec 32) :
    fieldCh (packFields op ch sel w h n) = ch := by
  unfold fieldCh packFields
  ext i hi
  rw [BitVec.getElem_extractLsb', BitVec.getLsbD_append, if_neg (by omega)]
  rw [BitVec.getLsbD_append, if_pos (by omega), show 8 + i - 8 = i by omega, BitVec.getLsbD_eq_getElem hi]

/-- Masking works field by field. -/
theorem and_fields (n n' : BitVec 32) (h h' w w' : BitVec 16) (r r' : BitVec 21) (s s' : BitVec 1) (c c' : BitVec 2)
    (o o' : BitVec 8) :
    (n ++ h ++ w ++ r ++ s ++ c ++ o) &&& (n' ++ h' ++ w' ++ r' ++ s' ++ c' ++ o') =
      (n &&& n') ++ (h &&& h') ++ (w &&& w') ++ (r &&& r') ++ (s &&& s') ++ (c &&& c') ++ (o &&& o') := by
  simp only [BitVec.and_append]

/-- The masked bits of packed fields are the opcode. -/
theorem packFields_masked (op : BitVec 8) (ch : BitVec 2) (sel : Bit) (w h : BitVec 16) (n : BitVec 32) :
    packFields op ch sel w h n &&& tableMask = packFields op 0 0 0 0 0 := by
  refine (and_fields n 0 h 0 w 0 0 0x1FFFFF sel 0 ch 0 op 0xFF).trans ?_
  rw [show op &&& 0xFF = op from BitVec.and_allOnes, show n &&& 0 = 0 from BitVec.and_zero,
    show h &&& 0 = 0 from BitVec.and_zero, show w &&& 0 = 0 from BitVec.and_zero, show sel &&& 0 = 0 from BitVec.and_zero,
    show ch &&& 0 = 0 from BitVec.and_zero]
  rfl

theorem Laws.TableRow.enc (ch : BitVec 2) (sel : Bit) (w h : BitVec 16) (n : BitVec 32) :
    Laws.TableRow.Statement (.enc ch sel w h n) := by
  refine ⟨packFields_masked opEnc ch sel w h n, ?_⟩
  simp only [Instr.wf, encode, fieldCh_packFields, bne_iff_ne]

theorem Laws.TableRow.dec (ch : BitVec 2) (sel : Bit) (w h : BitVec 16) (n : BitVec 32) :
    Laws.TableRow.Statement (.dec ch sel w h n) := by
  refine ⟨packFields_masked opDec ch sel w h n, ?_⟩
  simp only [Instr.wf, encode, fieldCh_packFields, bne_iff_ne]

end Sys2Proof
end

