-- ==== Sys2Proof/Tests/Slice0.lean ====
section
/-!
SUPPORT. The model's own tests: the WellFormed smoke, decoded words, one step per test with a result taken from the spec's examples,
and one named witness for the hypotheses of each statement of Certificates/Slice0/Obligations.lean.
-/

namespace Sys2Proof.Tests

open Sys2Proof.Machine

/-! ## WellFormed: the one check, with an ill-formed term for each constructor -/

theorem test_wf_refuses_enc_opacity : Instr.wf (.enc 3 0 4 4 1) = false := by decide

theorem test_wf_refuses_dec_opacity : Instr.wf (.dec 3 0 4 4 1) = false := by decide

theorem test_wf_accepts_empty : Instr.wf (.enc 2 1 0 0 0) = true := by decide

/-! ## Decoding (vectors I1 to I9 of 95_test_vectors.md; words written out from the fields of R91) -/

/-- `N = 1`, `H = 4`, `W = 5`, `RSV = 0`, `SEL = 1`, `CH = 2`, `OP = 1`, bit by bit. -/
theorem test_decode_enc_fields :
    decode (0b00000000000000000000000000000001#32 ++ 0b0000000000000100#16 ++ 0b0000000000000101#16 ++ 0b0#21 ++ 0b1#1 ++
      0b10#2 ++ 0b00000001#8) = .ok (.enc 2 1 5 4 1) := by rfl

/-- `N = 8`, `H = 4`, `W = 5`, `RSV = 0`, `SEL = 0`, `CH = 1`, `OP = 2`, bit by bit. -/
theorem test_decode_dec_fields :
    decode (0b00000000000000000000000000001000#32 ++ 0b0000000000000100#16 ++ 0b0000000000000101#16 ++ 0b0#21 ++ 0b0#1 ++
      0b01#2 ++ 0b00000010#8) = .ok (.dec 1 0 5 4 8) := by rfl

/-- R90: the descriptor of P3's `ENC G, 1, 5, 4, 2` from its three words. -/
theorem test_decode_of_words : decode (ofWords 0x00000501 0x00040005 0x00000002) = .ok (.enc 1 1 5 4 2) := by rfl

theorem test_decode_table_word : decodeTableWord 96 0x000000080004000400000402 = some (.dec 0 1 4 4 8) := by rfl

theorem test_decode_table_word_refused : decodeTableWord 96 0 = none := by rfl

/-- P4's descriptor of `DEC R, 0, 5, 4, 16`. -/
theorem test_encode_dec : encode (.dec 0 0 5 4 16) = 0x000000100004000500000002#96 := by decide

/-! ## Bit utilities (the examples of R120 to R124) -/

theorem test_bitAt_is_msb_first : (List.range 8).map (fun k => bitAt 0xB0 (BitVec.ofNat 3 k)) = [1, 0, 1, 1, 0, 0, 0, 0] := by
  decide

theorem test_lsb : lsb 0xFE = 0 ∧ lsb 0x01 = 1 := by decide

theorem test_setLsb : setLsb 0xA7 0 = 0xA6 ∧ setLsb 0xFF 0 = 0xFE ∧ setLsb 0 1 = 1 := by decide

theorem test_chan : chan 0xFF332211 1 = 0x22 := by decide

theorem test_withChan : withChan 0xFF332211 0 0x10 = 0xFF332210 := by decide

/-! ## One step of each command (the spec's examples) -/

/-- A block running `ENC R, 0, 4, 4, 1`, at pixel 1 of the grid, with payload index 1 next. -/
def encMid : State :=
  { State.reset with
    phase := .encRun, rW := 4, rH := 4, rN := 1, x := 1, bitIdx := 1
    img0 := [(0, 0xFF000000), (1, 0xFF332211)], img1 := [(0, 0xFF000001)], pay := [(0, 0xB0)] }

/-- R135's example: the written pixel is `0xFF332210` and `bit_idx` becomes 2. -/
theorem test_enc_embeds_a_zero : ∃ t, exec (.enc 0 0 4 4 1) encMid = .next t ∧
    Memory.read t.img1 1 = some 0xFF332210 ∧ t.bitIdx = 2 ∧ t.x = 2 ∧ t.y = 0 := ⟨_, rfl, by decide⟩

/-- P2 after its four pixel steps: the completion reports code 1 and 4 bits. -/
def encShort : State := { State.reset with phase := .encRun, rW := 2, rH := 2, rN := 1, y := 2, bitIdx := 4 }

theorem test_enc_reports_shortfall : ∃ t, exec (.enc 0 0 2 2 1) encShort = .next t ∧
    t.code = .insufficientCapacity ∧ t.len = 4 ∧ statusWord t 0 = 0x00000100 := ⟨_, rfl, by decide⟩

/-- R153's example at the byte boundary: seven bits of `0xB0` are pending and a 0 is next. -/
def decLast : State :=
  { State.reset with
    phase := .decRun, rW := 4, rH := 2, rN := 8, x := 3, y := 1, acc := 0b1011000, n := 7, bitsRead := 7
    img0 := [(7, 0xFF000000)] }

theorem test_dec_emits_a_byte : ∃ t, exec (.dec 0 0 4 2 8) decLast = .next t ∧
    Memory.read t.out 0 = some 0xB0 ∧ t.outLen = 1 ∧ t.acc = 0 ∧ t.n = 0 := ⟨_, rfl, by decide⟩

/-- R154's example: three bits pending after 11 pixel steps. -/
def decPartial : State :=
  { State.reset with
    phase := .decRun, rW := 4, rH := 4, rN := 11, x := 3, y := 2, acc := 0b110, n := 3, bitsRead := 11, outLen := 1
    out := [(0, 0xC3)] }

theorem test_dec_pads_the_last_byte : ∃ t, exec (.dec 0 0 4 4 11) decPartial = .next t ∧
    Memory.read t.out 1 = some 0xC0 ∧ t.len = 2 ∧ t.code = .ok ∧ t.phase = .idle := ⟨_, rfl, by decide⟩

/-! ## One step of each host operation -/

/-- R181's second example. -/
theorem test_issue_refuses_zero : ∃ t, step { State.reset with host := [.issue 0] } = .next t ∧
    t.code = .illegalCommand ∧ t.phase = .idle ∧ statusWord t 0 = 0x00000300 := ⟨_, rfl, by decide⟩

/-- R181's first example. -/
theorem test_issue_starts_enc : ∃ t, step (State.reset.withFetchWord 96 0x000000010004000400000001) = .next t ∧
    t.phase = .encRun ∧ t.rW = 4 ∧ t.rH = 4 ∧ t.rN = 1 := ⟨_, rfl, by decide⟩

/-- R185's example: the write, then the read. -/
theorem test_hwr_then_hrd : ∃ t, step { State.reset with host := [.hwrPixel 0 0 0xFF000000, .hrdPixel 0 0] } = .next t ∧
    ∃ u, step t = .next u ∧ u.replies = [.pixel 0xFF000000] := ⟨_, rfl, _, rfl, by decide⟩

theorem test_rdsr_while_running : ∃ t, step { encMid with host := [.rdsr 0] } = .next t ∧
    t.replies = [.status 1] ∧ t.phase = .encRun := ⟨_, rfl, by decide⟩

/-- R186's example, in small: the pixel already written stays. -/
theorem test_reset_keeps_memory : ∃ t, step { encMid with host := [.reset] } = .next t ∧
    t.phase = .idle ∧ t.bitIdx = 0 ∧ Memory.read t.img1 0 = some 0xFF000001 := ⟨_, rfl, by decide⟩

/-- R98: `FILL IMG0, 2, 4, v` is three writes, ascending. -/
theorem test_fill : fillPixels 0 2 4 7 = [.hwrPixel 0 2 7, .hwrPixel 0 3 7, .hwrPixel 0 4 7] := by decide

/-! ## Witnesses: states that meet the invariant -/

theorem inv_reset : Inv State.reset :=
  ⟨by decide, by decide, by decide, by decide, by decide, by decide, fun h => absurd rfl h,
    fun h => absurd h (by decide), fun h => absurd h (by decide)⟩

theorem inv_encMid : Inv encMid :=
  ⟨by decide, by decide, by decide, by decide, by decide, by decide, fun _ => ⟨by decide, by decide, by decide, rfl, rfl⟩,
    fun _ => ⟨by decide, by decide, by decide⟩, fun h => absurd h (by decide)⟩

theorem inv_encShort : Inv encShort :=
  ⟨by decide, by decide, by decide, by decide, by decide, by decide, fun _ => ⟨by decide, by decide, by decide, rfl, rfl⟩,
    fun _ => ⟨by decide, by decide, by decide⟩, fun h => absurd h (by decide)⟩

theorem inv_decLast : Inv decLast :=
  ⟨by decide, by decide, by decide, by decide, by decide, by decide, fun _ => ⟨by decide, by decide, by decide, rfl, rfl⟩,
    fun h => absurd h (by decide), fun _ => ⟨by decide, by decide, by decide, by decide, by decide, by decide⟩⟩

theorem inv_decPartial : Inv decPartial :=
  ⟨by decide, by decide, by decide, by decide, by decide, by decide, fun _ => ⟨by decide, by decide, by decide, rfl, rfl⟩,
    fun h => absurd h (by decide), fun _ => ⟨by decide, by decide, by decide, by decide, by decide, by decide⟩⟩

/-- A block at the last pixel of a 4 x 2 `ENC` from bank 1, with the eighth bit of a payload byte next. -/
def encRowEnd : State :=
  { State.reset with
    phase := .encRun, rCh := 2, rSel := 1, rW := 4, rH := 2, rN := 2, x := 3, y := 1, bitIdx := 7
    img1 := [(7, 0xFFFFFFFF)], pay := [(0, 0xFF)] }

theorem inv_encRowEnd : Inv encRowEnd :=
  ⟨by decide, by decide, by decide, by decide, by decide, by decide, fun _ => ⟨by decide, by decide, by decide, rfl, rfl⟩,
    fun _ => ⟨by decide, by decide, by decide⟩, fun h => absurd h (by decide)⟩

/-- A block in the copy arm: the payload of one byte is used up. -/
def encCopying : State :=
  { State.reset with
    phase := .encRun, rW := 4, rH := 4, rN := 1, y := 2, byteIdx := 1, img0 := [(8, 0x80112233)], pay := [(0, 0xB0)] }

theorem inv_encCopying : Inv encCopying :=
  ⟨by decide, by decide, by decide, by decide, by decide, by decide, fun _ => ⟨by decide, by decide, by decide, rfl, rfl⟩,
    fun _ => ⟨by decide, by decide, by decide⟩, fun h => absurd h (by decide)⟩

/-- An `ENC` that has embedded its whole payload and has no pixel left. -/
def encDone : State := { State.reset with phase := .encRun, rW := 4, rH := 2, rN := 1, y := 2, byteIdx := 1 }

theorem inv_encDone : Inv encDone :=
  ⟨by decide, by decide, by decide, by decide, by decide, by decide, fun _ => ⟨by decide, by decide, by decide, rfl, rfl⟩,
    fun _ => ⟨by decide, by decide, by decide⟩, fun h => absurd h (by decide)⟩

/-- R153's first example: three bits `101` are pending, the fourth comes from `0xFF000001`. -/
def decMid : State :=
  { State.reset with
    phase := .decRun, rSel := 1, rW := 4, rH := 4, rN := 8, x := 3, acc := 0b101, n := 3, bitsRead := 3
    img1 := [(3, 0xFF000001)] }

theorem inv_decMid : Inv decMid :=
  ⟨by decide, by decide, by decide, by decide, by decide, by decide, fun _ => ⟨by decide, by decide, by decide, rfl, rfl⟩,
    fun h => absurd h (by decide), fun _ => ⟨by decide, by decide, by decide, by decide, by decide, by decide⟩⟩

/-- A `DEC` that has read its whole bit count, a multiple of 8, on the last pixel (`N = P`). -/
def decWhole : State :=
  { State.reset with phase := .decRun, rW := 4, rH := 2, rN := 8, y := 2, bitsRead := 8, outLen := 1, out := [(0, 0xB0)] }

theorem inv_decWhole : Inv decWhole :=
  ⟨by decide, by decide, by decide, by decide, by decide, by decide, fun _ => ⟨by decide, by decide, by decide, rfl, rfl⟩,
    fun h => absurd h (by decide), fun _ => ⟨by decide, by decide, by decide, by decide, by decide, by decide⟩⟩

/-- P2's first `DEC` after its four pixel steps: the pixels run out with 4 bits pending. -/
def decShort : State :=
  { State.reset with phase := .decRun, rSel := 1, rW := 2, rH := 2, rN := 8, y := 2, acc := 0x0B, n := 4, bitsRead := 4 }

theorem inv_decShort : Inv decShort :=
  ⟨by decide, by decide, by decide, by decide, by decide, by decide, fun _ => ⟨by decide, by decide, by decide, rfl, rfl⟩,
    fun h => absurd h (by decide), fun _ => ⟨by decide, by decide, by decide, by decide, by decide, by decide⟩⟩

/-- P2's image and payload, in `IDLE`. -/
def loaded : State :=
  { State.reset with
    img0 := [(0, 0x80112233), (1, 0x7F0000FF), (2, 0xFFFFFFFF), (3, 0x00000000)], pay := [(0, 0xB5)] }

theorem inv_loaded : Inv loaded :=
  ⟨by decide, by decide, by decide, by decide, by decide, by decide, fun h => absurd rfl h,
    fun h => absurd h (by decide), fun h => absurd h (by decide)⟩

/-- P2's image as a function of the index. -/
def loadedPixel : Nat → Pixel
  | 0 => 0x80112233
  | 1 => 0x7F0000FF
  | 2 => 0xFFFFFFFF
  | _ => 0x00000000

/-- A row of eight black pixels and one payload byte, in `IDLE`. -/
def row8 : State :=
  { State.reset with
    img0 := (List.range 8).map (fun k => (k, 0xFF000000)), pay := [(0, 0xB0)] }

/-- The same with a ninth pixel. -/
def row9 : State := { row8 with img0 := (List.range 9).map (fun k => (k, 0xFF000000)) }

/-- Memories of 15 pixels, 1 payload byte and 1 output byte. -/
def tiny : State := { State.reset with caps := ⟨15, 1, 1⟩ }

/-! ## Witnesses: the hypotheses of each statement -/

theorem witness_DecodeIsTheProcedure_enc : let d : Descriptor := 0x000000010004000400000601#96
    d.extractLsb' 11 21 = 0 ∧ d.extractLsb' 8 2 ≠ 3 ∧ d.extractLsb' 0 8 = 0x01 := by decide

theorem witness_DecodeIsTheProcedure_dec : let d : Descriptor := 0x000000010004000400000002#96
    d.extractLsb' 11 21 = 0 ∧ d.extractLsb' 8 2 ≠ 3 ∧ d.extractLsb' 0 8 = 0x02 := by decide

theorem witness_DecodeIsTheProcedure_illegal :
    (0x80000001#96).extractLsb' 11 21 ≠ 0 ∧ (0x00000302#96).extractLsb' 8 2 = 3 ∧
      ((0x000000FF#96).extractLsb' 0 8 ≠ 0x01 ∧ (0x000000FF#96).extractLsb' 0 8 ≠ 0x02) := by decide

theorem witness_DecodeAfterEncode : Instr.wf (.enc 2 1 65535 65535 4294967295) = true ∧ Instr.wf (.dec 0 0 0 0 0) = true := by
  decide

theorem witness_EncodeAfterDecode : decode 0x000000010004000400000001#96 = .ok (.enc 0 0 4 4 1) := by rfl

theorem witness_StepRunsIssuedCommand : ∃ s : State, s.phase = .idle ∧
    s.host = .issue 0x000000080004000400000402#96 :: [.reset] ∧
    decode 0x000000080004000400000402#96 = .ok (.dec 0 1 4 4 8) :=
  ⟨{ State.reset with host := [.issue 0x000000080004000400000402#96, .reset] }, rfl, rfl, rfl⟩

theorem witness_StepRunsRunningCommand_quiet : encMid.phase = .encRun ∧ HostWaits encMid ∧
    ∃ t, step encMid = .next t := ⟨rfl, by simp [HostWaits, encMid, State.reset], _, rfl⟩

theorem witness_StepRunsRunningCommand_held : ∃ s : State, s.phase = .decRun ∧ s.host = [.hrdByte .out 0] ∧ HostWaits s ∧
    ∃ t, step s = .next t :=
  ⟨{ decMid with host := [.hrdByte .out 0] }, rfl, rfl, by simp [HostWaits, heldWhileBusy], _, rfl⟩

theorem witness_StepRunsRunningCommand_pass : ∃ s : State, s.phase = .decRun ∧ s.host = .pass :: [.issue 1] :=
  ⟨{ decMid with host := [.pass, .issue 1] }, rfl, rfl⟩

theorem witness_FetchWordIsRunNext : decodeTableWord 96 0x000000010004000400000001 = some (.enc 0 0 4 4 1) ∧
    decodeTableWord 8 0x02 = some (.dec 0 0 0 0 0) := ⟨rfl, rfl⟩

theorem witness_IdleBlockTakesNoStep : (State.reset.phase = .idle ∧ State.reset.host = []) ∧
    ∃ s : State, s.phase = .idle ∧ s.host = .pass :: [] := ⟨⟨rfl, rfl⟩, { State.reset with host := [.pass] }, rfl, rfl⟩

theorem witness_EncStartsWhenIssued : tiny.phase = .idle ∧ (2 : BitVec 2) ≠ 3 ∧
    (5 : BitVec 16).toNat * (3 : BitVec 16).toNat ≤ tiny.caps.imgCap ∧
    min (1 : BitVec 32).toNat (((5 : BitVec 16).toNat * (3 : BitVec 16).toNat + 7) / 8) ≤ tiny.caps.payCap := by decide

theorem witness_EncStartsWhenIssued_largest : State.reset.phase = .idle ∧ (0 : BitVec 2) ≠ 3 ∧
    (65535 : BitVec 16).toNat * (65535 : BitVec 16).toNat ≤ State.reset.caps.imgCap ∧
    min (4294967295 : BitVec 32).toNat (((65535 : BitVec 16).toNat * (65535 : BitVec 16).toNat + 7) / 8) ≤
      State.reset.caps.payCap := by decide

theorem witness_DecStartsWhenIssued : tiny.phase = .idle ∧ (1 : BitVec 2) ≠ 3 ∧
    (5 : BitVec 16).toNat * (3 : BitVec 16).toNat ≤ tiny.caps.imgCap ∧
    (min (8 : BitVec 32).toNat ((5 : BitVec 16).toNat * (3 : BitVec 16).toNat) + 7) / 8 ≤ tiny.caps.outCap := by decide

theorem witness_IllegalDescriptorRefused : ∃ s : State, s.phase = .idle ∧ s.host = .issue 0x00000302#96 :: [] ∧
    ¬(((0x00000302#96).extractLsb' 0 8 = 0x01 ∨ (0x00000302#96).extractLsb' 0 8 = 0x02) ∧
      (0x00000302#96).extractLsb' 11 21 = 0 ∧ (0x00000302#96).extractLsb' 8 2 ≠ 3) :=
  ⟨{ State.reset with host := [.issue 0x00000302#96] }, rfl, rfl, by decide⟩

/-- 16 pixels do not fit 15; 2 payload bytes do not fit 1. -/
theorem witness_OversizeCommandRefused_enc : tiny.phase = .idle ∧
    ¬((4 : BitVec 16).toNat * (4 : BitVec 16).toNat ≤ tiny.caps.imgCap ∧
      min (1 : BitVec 32).toNat (((4 : BitVec 16).toNat * (4 : BitVec 16).toNat + 7) / 8) ≤ tiny.caps.payCap) ∧
    ¬((5 : BitVec 16).toNat * (3 : BitVec 16).toNat ≤ tiny.caps.imgCap ∧
      min (2 : BitVec 32).toNat (((5 : BitVec 16).toNat * (3 : BitVec 16).toNat + 7) / 8) ≤ tiny.caps.payCap) := by decide

/-- 9 bits do not fit one output byte. -/
theorem witness_OversizeCommandRefused_dec : tiny.phase = .idle ∧
    ¬((5 : BitVec 16).toNat * (3 : BitVec 16).toNat ≤ tiny.caps.imgCap ∧
      (min (9 : BitVec 32).toNat ((5 : BitVec 16).toNat * (3 : BitVec 16).toNat) + 7) / 8 ≤ tiny.caps.outCap) := by decide

theorem witness_OversizeCommandRefused_reference : State.reset.phase = .idle ∧
    Instr.wf (.enc 2 1 65535 65535 4294967295) = true ∧ State.reset.caps = Caps.reference := by decide

theorem witness_EncPixelStep_embed : Inv encRowEnd ∧ encRowEnd.phase = .encRun ∧ encRowEnd.rW ≠ 0 ∧
    encRowEnd.y.toNat < encRowEnd.rH.toNat ∧
    Memory.read (encRowEnd.bank encRowEnd.rSel) (encRowEnd.y.toNat * encRowEnd.rW.toNat + encRowEnd.x.toNat) =
      some 0xFFFFFFFF ∧
    encRowEnd.byteIdx.toNat < encRowEnd.rN.toNat ∧ Memory.read encRowEnd.pay encRowEnd.byteIdx.toNat = some 0xFF ∧
    encRowEnd.bitIdx = 7 ∧ ¬encRowEnd.x.toNat + 1 < encRowEnd.rW.toNat := ⟨inv_encRowEnd, by decide⟩

theorem witness_EncPixelStep_embed_inside : Inv encMid ∧ encMid.phase = .encRun ∧ encMid.rW ≠ 0 ∧
    encMid.y.toNat < encMid.rH.toNat ∧
    Memory.read (encMid.bank encMid.rSel) (encMid.y.toNat * encMid.rW.toNat + encMid.x.toNat) = some 0xFF332211 ∧
    encMid.byteIdx.toNat < encMid.rN.toNat ∧ Memory.read encMid.pay encMid.byteIdx.toNat = some 0xB0 ∧
    encMid.bitIdx ≠ 7 ∧ encMid.x.toNat + 1 < encMid.rW.toNat := ⟨inv_encMid, by decide⟩

theorem witness_EncPixelStep_copy : Inv encCopying ∧ encCopying.phase = .encRun ∧ encCopying.rW ≠ 0 ∧
    encCopying.y.toNat < encCopying.rH.toNat ∧
    Memory.read (encCopying.bank encCopying.rSel) (encCopying.y.toNat * encCopying.rW.toNat + encCopying.x.toNat) =
      some 0x80112233 ∧
    encCopying.rN.toNat ≤ encCopying.byteIdx.toNat := ⟨inv_encCopying, by decide⟩

theorem witness_EncCompletionStep_short : Inv encShort ∧ encShort.phase = .encRun ∧
    encShort.rH.toNat ≤ encShort.y.toNat ∧ encShort.byteIdx.toNat < encShort.rN.toNat := ⟨inv_encShort, by decide⟩

theorem witness_EncCompletionStep_whole : Inv encDone ∧ encDone.phase = .encRun ∧
    encDone.rH.toNat ≤ encDone.y.toNat ∧ ¬encDone.byteIdx.toNat < encDone.rN.toNat := ⟨inv_encDone, by decide⟩

theorem witness_DecPixelStep_emit : Inv decLast ∧ decLast.phase = .decRun ∧ decLast.bitsRead ≠ decLast.rN ∧ decLast.rW ≠ 0 ∧
    decLast.y.toNat < decLast.rH.toNat ∧
    Memory.read (decLast.bank decLast.rSel) (decLast.y.toNat * decLast.rW.toNat + decLast.x.toNat) = some 0xFF000000 ∧
    decLast.n = 7 := ⟨inv_decLast, by decide⟩

theorem witness_DecPixelStep_gather : Inv decMid ∧ decMid.phase = .decRun ∧ decMid.bitsRead ≠ decMid.rN ∧ decMid.rW ≠ 0 ∧
    decMid.y.toNat < decMid.rH.toNat ∧
    Memory.read (decMid.bank decMid.rSel) (decMid.y.toNat * decMid.rW.toNat + decMid.x.toNat) = some 0xFF000001 ∧
    decMid.n ≠ 7 := ⟨inv_decMid, by decide⟩

theorem witness_DecNormalCompletionStep_pad : Inv decPartial ∧ decPartial.phase = .decRun ∧
    decPartial.bitsRead = decPartial.rN ∧ decPartial.n ≠ 0 := ⟨inv_decPartial, by decide⟩

/-- `N = P`: the grid is exhausted too, and the completion is the normal one. -/
theorem witness_DecNormalCompletionStep_whole : Inv decWhole ∧ decWhole.phase = .decRun ∧
    decWhole.bitsRead = decWhole.rN ∧ decWhole.n = 0 ∧ exhausted decWhole = true := ⟨inv_decWhole, by decide⟩

theorem witness_DecOverrunCompletionStep : Inv decShort ∧ decShort.phase = .decRun ∧
    decShort.rH.toNat ≤ decShort.y.toNat ∧ decShort.bitsRead ≠ decShort.rN := ⟨inv_decShort, by decide⟩

theorem witness_DecOverrunCompletionStep_met : Inv decWhole ∧ decWhole.phase = .decRun ∧
    decWhole.rH.toNat ≤ decWhole.y.toNat ∧ ¬decWhole.bitsRead ≠ decWhole.rN := ⟨inv_decWhole, by decide⟩

theorem witness_ZeroBitCountReadsNothing : State.reset.phase = .idle ∧ State.reset.host = [] ∧ (2 : BitVec 2) ≠ 3 ∧
    (65535 : BitVec 16).toNat * (65535 : BitVec 16).toNat ≤ State.reset.caps.imgCap := by decide

theorem loaded_pixels : PixelsAre loaded 0 ((2 : BitVec 16).toNat * (2 : BitVec 16).toNat) loadedPixel := by
  show ∀ k < 4, Memory.read (loaded.bank 0) k = some (loadedPixel k)
  decide

theorem loaded_payload : PayloadIs loaded (min (1 : BitVec 32).toNat (((2 : BitVec 16).toNat * (2 : BitVec 16).toNat + 7) / 8))
    (fun _ => 0xB5) := by
  show ∀ k < 1, Memory.read loaded.pay k = some 0xB5
  decide

/-- `P = 4 < 8 * N`: every pixel is embedded and payload remains (code 1). -/
theorem witness_EncResultClosedForm : loaded.phase = .idle ∧ loaded.host = [] ∧ (0 : BitVec 2) ≠ 3 ∧
    (2 : BitVec 16).toNat * (2 : BitVec 16).toNat ≤ loaded.caps.imgCap ∧
    min (1 : BitVec 32).toNat (((2 : BitVec 16).toNat * (2 : BitVec 16).toNat + 7) / 8) ≤ loaded.caps.payCap ∧
    PixelsAre loaded 0 ((2 : BitVec 16).toNat * (2 : BitVec 16).toNat) loadedPixel ∧
    PayloadIs loaded (min (1 : BitVec 32).toNat (((2 : BitVec 16).toNat * (2 : BitVec 16).toNat + 7) / 8)) (fun _ => 0xB5) :=
  ⟨rfl, rfl, by decide, by decide, by decide, loaded_pixels, loaded_payload⟩

/-- `P = 8 = 8 * N`: the payload just fits (code 0). -/
theorem witness_EncResultClosedForm_fits : row8.phase = .idle ∧ row8.host = [] ∧ (0 : BitVec 2) ≠ 3 ∧
    (4 : BitVec 16).toNat * (2 : BitVec 16).toNat ≤ row8.caps.imgCap ∧
    min (1 : BitVec 32).toNat (((4 : BitVec 16).toNat * (2 : BitVec 16).toNat + 7) / 8) ≤ row8.caps.payCap ∧
    PixelsAre row8 0 ((4 : BitVec 16).toNat * (2 : BitVec 16).toNat) (fun _ => 0xFF000000) ∧
    PayloadIs row8 (min (1 : BitVec 32).toNat (((4 : BitVec 16).toNat * (2 : BitVec 16).toNat + 7) / 8)) (fun _ => 0xB0) ∧
    ¬(4 : BitVec 16).toNat * (2 : BitVec 16).toNat < 8 * (1 : BitVec 32).toNat := by
  refine ⟨rfl, rfl, by decide, by decide, by decide, ?_, ?_, by decide⟩
  · show ∀ k < 8, Memory.read (row8.bank 0) k = some 0xFF000000
    decide
  · show ∀ k < 1, Memory.read row8.pay k = some 0xB0
    decide

/-- `P = 9 = 8 * N + 1`: pixel 8 is copied (code 0). -/
theorem witness_EncResultClosedForm_copies : row9.phase = .idle ∧ row9.host = [] ∧ (0 : BitVec 2) ≠ 3 ∧
    (3 : BitVec 16).toNat * (3 : BitVec 16).toNat ≤ row9.caps.imgCap ∧
    min (1 : BitVec 32).toNat (((3 : BitVec 16).toNat * (3 : BitVec 16).toNat + 7) / 8) ≤ row9.caps.payCap ∧
    PixelsAre row9 0 ((3 : BitVec 16).toNat * (3 : BitVec 16).toNat) (fun _ => 0xFF000000) ∧
    PayloadIs row9 (min (1 : BitVec 32).toNat (((3 : BitVec 16).toNat * (3 : BitVec 16).toNat + 7) / 8)) (fun _ => 0xB0) ∧
    8 < (3 : BitVec 16).toNat * (3 : BitVec 16).toNat ∧ ¬8 < 8 * (1 : BitVec 32).toNat := by
  refine ⟨rfl, rfl, by decide, by decide, by decide, ?_, ?_, by decide⟩
  · show ∀ k < 9, Memory.read (row9.bank 0) k = some 0xFF000000
    decide
  · show ∀ k < 1, Memory.read row9.pay k = some 0xB0
    decide

theorem witness_EncLeavesOtherBitsAlone : loaded.phase = .idle ∧ loaded.host = [] ∧ (1 : BitVec 2) ≠ 3 ∧
    (2 : BitVec 16).toNat * (2 : BitVec 16).toNat ≤ loaded.caps.imgCap ∧
    min (1 : BitVec 32).toNat (((2 : BitVec 16).toNat * (2 : BitVec 16).toNat + 7) / 8) ≤ loaded.caps.payCap ∧
    PixelsAre loaded 0 ((2 : BitVec 16).toNat * (2 : BitVec 16).toNat) loadedPixel ∧
    PayloadIs loaded (min (1 : BitVec 32).toNat (((2 : BitVec 16).toNat * (2 : BitVec 16).toNat + 7) / 8)) (fun _ => 0xB5) :=
  ⟨rfl, rfl, by decide, by decide, by decide, loaded_pixels, loaded_payload⟩

/-- `N = 4 = P`. -/
theorem witness_DecResultClosedForm : loaded.phase = .idle ∧ loaded.host = [] ∧ (0 : BitVec 2) ≠ 3 ∧
    (2 : BitVec 16).toNat * (2 : BitVec 16).toNat ≤ loaded.caps.imgCap ∧
    (min (4 : BitVec 32).toNat ((2 : BitVec 16).toNat * (2 : BitVec 16).toNat) + 7) / 8 ≤ loaded.caps.outCap ∧
    (4 : BitVec 32).toNat ≤ (2 : BitVec 16).toNat * (2 : BitVec 16).toNat ∧
    PixelsAre loaded 0 (min (4 : BitVec 32).toNat ((2 : BitVec 16).toNat * (2 : BitVec 16).toNat)) loadedPixel :=
  ⟨rfl, rfl, by decide, by decide, by decide, by decide, loaded_pixels⟩

/-- `N = 5 > P`. -/
theorem witness_DecResultClosedForm_overrun : loaded.phase = .idle ∧ loaded.host = [] ∧ (0 : BitVec 2) ≠ 3 ∧
    (2 : BitVec 16).toNat * (2 : BitVec 16).toNat ≤ loaded.caps.imgCap ∧
    (min (5 : BitVec 32).toNat ((2 : BitVec 16).toNat * (2 : BitVec 16).toNat) + 7) / 8 ≤ loaded.caps.outCap ∧
    ¬(5 : BitVec 32).toNat ≤ (2 : BitVec 16).toNat * (2 : BitVec 16).toNat ∧
    PixelsAre loaded 0 (min (5 : BitVec 32).toNat ((2 : BitVec 16).toNat * (2 : BitVec 16).toNat)) loadedPixel :=
  ⟨rfl, rfl, by decide, by decide, by decide, by decide, loaded_pixels⟩

/-- One byte in a 4 x 2 image, read back as an 8 x 1 image. -/
theorem witness_EncThenDecRoundTrip : row8.phase = .idle ∧ row8.host = [] ∧ (0 : BitVec 2) ≠ 3 ∧
    (4 : BitVec 16).toNat * (2 : BitVec 16).toNat ≤ row8.caps.imgCap ∧
    (8 : BitVec 16).toNat * (1 : BitVec 16).toNat ≤ row8.caps.imgCap ∧
    (1 : BitVec 32).toNat ≤ row8.caps.payCap ∧ (1 : BitVec 32).toNat ≤ row8.caps.outCap ∧
    8 * (1 : BitVec 32).toNat ≤ (4 : BitVec 16).toNat * (2 : BitVec 16).toNat ∧
    8 * (1 : BitVec 32).toNat ≤ (8 : BitVec 16).toNat * (1 : BitVec 16).toNat ∧
    (8 : BitVec 32).toNat = 8 * (1 : BitVec 32).toNat ∧
    PixelsAre row8 0 ((4 : BitVec 16).toNat * (2 : BitVec 16).toNat) (fun _ => 0xFF000000) ∧
    PayloadIs row8 (1 : BitVec 32).toNat (fun _ => 0xB0) := by
  refine ⟨rfl, rfl, by decide, by decide, by decide, by decide, by decide, by decide, by decide, rfl, ?_, ?_⟩
  · show ∀ k < 8, Memory.read (row8.bank 0) k = some 0xFF000000
    decide
  · show ∀ k < 1, Memory.read row8.pay k = some 0xB0
    decide

/-- `k = 3` of 4 pixels of an `ENC`; the sizes and contents are those of the closed form's witness. -/
theorem witness_MidCommandResetKeepsPrefix_enc : 3 ≤ (2 : BitVec 16).toNat * (2 : BitVec 16).toNat ∧
    loaded.phase = .idle ∧ loaded.host = [] ∧ (0 : BitVec 2) ≠ 3 ∧
    (2 : BitVec 16).toNat * (2 : BitVec 16).toNat ≤ loaded.caps.imgCap ∧
    min (1 : BitVec 32).toNat (((2 : BitVec 16).toNat * (2 : BitVec 16).toNat + 7) / 8) ≤ loaded.caps.payCap ∧
    PixelsAre loaded 0 ((2 : BitVec 16).toNat * (2 : BitVec 16).toNat) loadedPixel ∧
    PayloadIs loaded (min (1 : BitVec 32).toNat (((2 : BitVec 16).toNat * (2 : BitVec 16).toNat + 7) / 8)) (fun _ => 0xB5) :=
  ⟨by decide, witness_EncResultClosedForm⟩

/-- `k = 8`, all of a `DEC` but its completion step: one whole byte is in `OUT`. -/
theorem witness_MidCommandResetKeepsPrefix_dec : row8.phase = .idle ∧ row8.host = [] ∧ (0 : BitVec 2) ≠ 3 ∧
    (4 : BitVec 16).toNat * (2 : BitVec 16).toNat ≤ row8.caps.imgCap ∧
    (min (8 : BitVec 32).toNat ((4 : BitVec 16).toNat * (2 : BitVec 16).toNat) + 7) / 8 ≤ row8.caps.outCap ∧
    PixelsAre row8 0 (min (8 : BitVec 32).toNat ((4 : BitVec 16).toNat * (2 : BitVec 16).toNat)) (fun _ => 0xFF000000) ∧
    8 ≤ min (8 : BitVec 32).toNat ((4 : BitVec 16).toNat * (2 : BitVec 16).toNat) := by
  refine ⟨rfl, rfl, by decide, by decide, by decide, ?_, by decide⟩
  show ∀ k < 8, Memory.read (row8.bank 0) k = some 0xFF000000
  decide

theorem witness_CommandEndsAfterStatedSteps_enc : Inv encMid ∧ encMid.phase ≠ .idle ∧ HostWaits encMid ∧
    ∃ t, step encMid = .next t := ⟨inv_encMid, by decide, by simp [HostWaits, encMid, State.reset], _, rfl⟩

theorem witness_CommandEndsAfterStatedSteps_dec : Inv decShort ∧ decShort.phase ≠ .idle ∧ HostWaits decShort ∧
    ∃ t, step decShort = .next t := ⟨inv_decShort, by decide, by simp [HostWaits, decShort, State.reset], _, rfl⟩

theorem witness_CommandEndsAfterStatedSteps_start : State.reset.phase = .idle ∧
    (∃ t, exec (.enc 0 0 4 4 1) State.reset = .next t ∧ t.phase ≠ .idle) ∧
    ∃ t, exec (.dec 0 0 4 4 17) State.reset = .next t ∧ t.phase ≠ .idle := ⟨rfl, ⟨_, rfl, by decide⟩, _, rfl, by decide⟩

theorem witness_StepKeepsInvariant : (Inv encRowEnd ∧ ∃ t, step encRowEnd = .next t) ∧
    (Inv decLast ∧ ∃ t, step decLast = .next t) := ⟨⟨inv_encRowEnd, _, rfl⟩, inv_decLast, _, rfl⟩

theorem witness_BlockStaysInsideMemories : Inv decLast := inv_decLast

theorem witness_BlockStepNeverFailsOnWrittenInputs_enc : Inv encMid ∧ encMid.phase ≠ .idle ∧
    (encMid.phase = .encRun → exhausted encMid = false → Memory.read (encMid.bank encMid.rSel) (idx encMid) ≠ none ∧
      (encMid.byteIdx.toNat < encMid.rN.toNat → Memory.read encMid.pay encMid.byteIdx.toNat ≠ none)) ∧
    (encMid.phase = .decRun → encMid.bitsRead ≠ encMid.rN → exhausted encMid = false →
      Memory.read (encMid.bank encMid.rSel) (idx encMid) ≠ none) := ⟨inv_encMid, by decide⟩

theorem witness_BlockStepNeverFailsOnWrittenInputs_dec : Inv decLast ∧ decLast.phase ≠ .idle ∧
    (decLast.phase = .decRun → decLast.bitsRead ≠ decLast.rN → exhausted decLast = false →
      Memory.read (decLast.bank decLast.rSel) (idx decLast) ≠ none) := ⟨inv_decLast, by decide⟩

/-- `encMid` with nothing written in its source bank. -/
def encBlank : State := { encMid with img0 := [] }

theorem inv_encBlank : Inv encBlank :=
  ⟨by decide, by decide, by decide, by decide, by decide, by decide, fun _ => ⟨by decide, by decide, by decide, rfl, rfl⟩,
    fun _ => ⟨by decide, by decide, by decide⟩, fun h => absurd h (by decide)⟩

theorem witness_UnwrittenReadsStop_enc : Inv encBlank ∧ encBlank.rW ≠ 0 ∧ encBlank.y.toNat < encBlank.rH.toNat ∧
    Memory.read (encBlank.bank encBlank.rSel) (encBlank.y.toNat * encBlank.rW.toNat + encBlank.x.toNat) = none ∧
    encBlank.phase = .encRun := ⟨inv_encBlank, by decide⟩

/-- `decMid` with nothing written in its source bank. -/
def decBlank : State := { decMid with img1 := [] }

theorem inv_decBlank : Inv decBlank :=
  ⟨by decide, by decide, by decide, by decide, by decide, by decide, fun _ => ⟨by decide, by decide, by decide, rfl, rfl⟩,
    fun h => absurd h (by decide), fun _ => ⟨by decide, by decide, by decide, by decide, by decide, by decide⟩⟩

theorem witness_UnwrittenReadsStop_dec : Inv decBlank ∧ decBlank.rW ≠ 0 ∧ decBlank.y.toNat < decBlank.rH.toNat ∧
    Memory.read (decBlank.bank decBlank.rSel) (decBlank.y.toNat * decBlank.rW.toNat + decBlank.x.toNat) = none ∧
    decBlank.phase = .decRun ∧ decBlank.bitsRead ≠ decBlank.rN := ⟨inv_decBlank, by decide⟩

/-- `encMid` with nothing written in `PAY`. -/
def encNoPayload : State := { encMid with pay := [] }

theorem inv_encNoPayload : Inv encNoPayload :=
  ⟨by decide, by decide, by decide, by decide, by decide, by decide, fun _ => ⟨by decide, by decide, by decide, rfl, rfl⟩,
    fun _ => ⟨by decide, by decide, by decide⟩, fun h => absurd h (by decide)⟩

theorem witness_UnwrittenReadsStop_payload : Inv encNoPayload ∧ encNoPayload.rW ≠ 0 ∧
    encNoPayload.y.toNat < encNoPayload.rH.toNat ∧
    Memory.read (encNoPayload.bank encNoPayload.rSel)
      (encNoPayload.y.toNat * encNoPayload.rW.toNat + encNoPayload.x.toNat) ≠ none ∧
    encNoPayload.phase = .encRun ∧ encNoPayload.byteIdx.toNat < encNoPayload.rN.toNat ∧
    Memory.read encNoPayload.pay encNoPayload.byteIdx.toNat = none := ⟨inv_encNoPayload, by decide⟩

/-- A start, and a refusal. -/
theorem witness_StartFrame : tiny.phase = .idle ∧ (∃ t, exec (.enc 0 0 3 5 1) tiny = .next t ∧ t.phase = .encRun) ∧
    ∃ t, exec (.dec 0 0 4 4 1) tiny = .next t ∧ t.phase = .idle := ⟨rfl, ⟨_, rfl, rfl⟩, _, rfl, rfl⟩

theorem witness_EncStepFrame : (encRowEnd.phase = .encRun ∧ exhausted encRowEnd = false ∧
      ∃ t, exec (.enc 2 1 4 2 2) encRowEnd = .next t) ∧
    (encCopying.phase = .encRun ∧ exhausted encCopying = false ∧ encCopying.rN.toNat ≤ encCopying.byteIdx.toNat ∧
      ∃ t, exec (.enc 0 0 4 4 1) encCopying = .next t) ∧
    (encShort.phase = .encRun ∧ exhausted encShort = true ∧ ∃ t, exec (.enc 0 0 2 2 1) encShort = .next t) :=
  ⟨⟨rfl, rfl, _, rfl⟩, ⟨rfl, rfl, by decide, _, rfl⟩, rfl, rfl, _, rfl⟩

theorem witness_DecStepFrame_pixel : (decMid.phase = .decRun ∧ decMid.bitsRead ≠ decMid.rN ∧ exhausted decMid = false ∧
      decMid.n ≠ 7 ∧ ∃ t, exec (.dec 0 1 4 4 8) decMid = .next t) ∧
    (decLast.phase = .decRun ∧ decLast.n = 7 ∧ ∃ t, exec (.dec 0 0 4 2 8) decLast = .next t) :=
  ⟨⟨rfl, by decide, rfl, by decide, _, rfl⟩, rfl, rfl, _, rfl⟩

theorem witness_DecStepFrame_completion : (decWhole.phase = .decRun ∧ decWhole.bitsRead = decWhole.rN ∧ decWhole.n = 0 ∧
      ∃ t, exec (.dec 0 0 4 2 8) decWhole = .next t) ∧
    (decShort.phase = .decRun ∧ decShort.bitsRead ≠ decShort.rN ∧ exhausted decShort = true ∧
      ∃ t, exec (.dec 0 1 2 2 8) decShort = .next t) :=
  ⟨⟨rfl, rfl, rfl, _, rfl⟩, rfl, by decide, rfl, _, rfl⟩

theorem witness_OperandsStayLatched : encMid.phase ≠ .idle ∧ (∃ t, step encMid = .next t) ∧
    encMid.host.head? ≠ some .reset := ⟨by decide, ⟨_, rfl⟩, by decide⟩

theorem witness_RunningCommandKeepsItsInputs : (encMid.phase = .encRun ∧ ∃ t, step encMid = .next t) ∧
    (decLast.phase = .decRun ∧ ∃ t, step decLast = .next t) := ⟨⟨rfl, _, rfl⟩, rfl, _, rfl⟩

theorem witness_CodesHaveTheirRaisers_completion :
    (∃ t, step encShort = .next t ∧ t.code ≠ encShort.code ∧ t.code = .insufficientCapacity) ∧
    (∃ t, step decShort = .next t ∧ t.code ≠ decShort.code ∧ t.code = .insufficientPixels) :=
  ⟨⟨_, rfl, by decide, by decide⟩, _, rfl, by decide, by decide⟩

theorem witness_CodesHaveTheirRaisers_issue :
    (∃ t, step { State.reset with host := [.issue 0x00000301#96] } = .next t ∧ t.code = .illegalCommand) ∧
    (∃ t, step { tiny with host := [.issue 0x000000010004000400000001#96] } = .next t ∧ t.code = .rangeError) :=
  ⟨⟨_, rfl, by decide⟩, _, rfl, by decide⟩

/-- Two images that agree in the low bit of red of pixel 3 only. -/
theorem witness_OnlyHiddenBitsInfluenceDec : decMid.phase = .decRun ∧
    (∀ k, (Memory.read (({ decMid with img0 := [], img1 := [(3, 0x00ABCDEF)] } : State).bank decMid.rSel) k).map
        (fun p => lsb (chan p decMid.rCh)) =
      (Memory.read (decMid.bank decMid.rSel) k).map (fun p => lsb (chan p decMid.rCh))) ∧
    ∃ t, exec (.dec 0 1 4 4 8) decMid = .next t := by
  refine ⟨rfl, fun k => ?_, _, rfl⟩
  by_cases h : 3 = k
  · subst h; rfl
  · show Option.map _ (if 3 = k then _ else none) = Option.map _ (if 3 = k then _ else none)
    rw [if_neg h, if_neg h]

theorem witness_HiddenRegistersDoNotMatter : (State.reset.phase = .idle ∧ ∃ t, step State.reset = .next t) ∧
    ∃ s : State, s.phase = .idle ∧ ∃ t, step s = .next t ∧ t.phase ≠ .idle :=
  ⟨⟨rfl, _, rfl⟩, State.reset.withFetchWord 96 1, rfl, _, rfl, by decide⟩

theorem witness_BitUtilityLaws : (2 : BitVec 2) ≠ 3 ∧ (3 : BitVec 2) ≠ 2 := by decide

/-- Inside a row; at a row end; at the last pixel of the grid. -/
theorem witness_CursorVisitsAscendingIndices : (encMid.x.toNat < encMid.rW.toNat ∧ encMid.y.toNat < encMid.rH.toNat ∧
      exhausted (advance encMid) = false) ∧
    (decMid.x.toNat < decMid.rW.toNat ∧ decMid.y.toNat < decMid.rH.toNat ∧ ¬decMid.x.toNat + 1 < decMid.rW.toNat ∧
      exhausted (advance decMid) = false) ∧
    (encRowEnd.x.toNat < encRowEnd.rW.toNat ∧ encRowEnd.y.toNat < encRowEnd.rH.toNat ∧
      exhausted (advance encRowEnd) = true) := by decide

theorem witness_StatusRegistersRead : ∃ s : State, s.host = .rdsr 1 :: [] ∧ Inv s ∧ s.phase ≠ .idle :=
  ⟨{ encMid with host := [.rdsr 1] }, rfl,
    ⟨by decide, by decide, by decide, by decide, by decide, by decide, fun _ => ⟨by decide, by decide, by decide, rfl, rfl⟩,
      fun _ => ⟨by decide, by decide, by decide⟩, fun h => absurd h (by decide)⟩, by decide⟩

/-- The last element of each memory of `tiny`. -/
theorem witness_HostPixelAccess : tiny.phase = .idle ∧ (14 : Index).toNat < tiny.caps.imgCap ∧
    (∃ s : State, s.host = .hrdPixel 1 14 :: [] ∧ Memory.read (s.bank 1) (14 : Index).toNat = some 7) ∧
    (∃ s : State, s.host = .hwrPixel 1 14 7 :: []) :=
  ⟨rfl, by decide, ⟨{ tiny with host := [.hrdPixel 1 14], img1 := [(14, 7)] }, rfl, by decide⟩,
    { tiny with host := [.hwrPixel 1 14 7] }, rfl⟩

theorem witness_HostByteAccess_pay : ∃ s : State, s.phase = .idle ∧ (0 : Index).toNat < s.caps.payCap ∧
    s.host = .hrdByte .pay 0 :: [.hwrByte .pay 0 9] ∧ Memory.read s.pay (0 : Index).toNat = some 7 :=
  ⟨{ tiny with host := [.hrdByte .pay 0, .hwrByte .pay 0 9], pay := [(0, 7)] }, rfl, by decide, rfl, by decide⟩

theorem witness_HostByteAccess_out : ∃ s : State, s.phase = .idle ∧ (0 : Index).toNat < s.caps.outCap ∧
    s.host = .hrdByte .out 0 :: [.hwrByte .out 0 9] ∧ Memory.read s.out (0 : Index).toNat = some 7 :=
  ⟨{ tiny with host := [.hrdByte .out 0, .hwrByte .out 0 9], out := [(0, 7)] }, rfl, by decide, rfl, by decide⟩

/-- The first index that does not exist. -/
theorem witness_HostAccessOutOfRangeIsStuck : (∃ s : State, s.phase = .idle ∧ s.caps.imgCap ≤ (15 : Index).toNat ∧
      s.host = .hrdPixel 0 15 :: []) ∧
    (∃ s : State, s.phase = .idle ∧ s.caps.payCap ≤ (1 : Index).toNat ∧ s.host = .hwrByte .pay 1 0 :: []) ∧
    (∃ s : State, s.phase = .idle ∧ s.caps.outCap ≤ (1 : Index).toNat ∧ s.host = .hrdByte .out 1 :: []) :=
  ⟨⟨{ tiny with host := [.hrdPixel 0 15] }, rfl, by decide, rfl⟩, ⟨{ tiny with host := [.hwrByte .pay 1 0] }, rfl, by decide, rfl⟩,
    { tiny with host := [.hrdByte .out 1] }, rfl, by decide, rfl⟩

theorem witness_BusyBlockHoldsTheHost : (∃ s : State, s.phase ≠ .idle ∧ s.host = .issue 1 :: [] ∧ ∃ t, step s = .next t) ∧
    (∃ s : State, s.phase ≠ .idle ∧ s.host = .hrdPixel 1 0 :: [.reset] ∧ ∃ t, step s = .next t) ∧
    (∃ s : State, s.phase ≠ .idle ∧ s.host = .hwrByte .pay 0 9 :: [] ∧ ∃ t, step s = .next t) :=
  ⟨⟨{ encMid with host := [.issue 1] }, by decide, rfl, _, rfl⟩, ⟨{ encMid with host := [.hrdPixel 1 0, .reset] }, by decide, rfl, _, rfl⟩,
    { decMid with host := [.hwrByte .pay 0 9] }, by decide, rfl, _, rfl⟩

theorem witness_ResetClearsRegistersOnly : ∃ s : State, s.phase = .decRun ∧ s.host = .reset :: [.rdsr 0] :=
  ⟨{ decLast with host := [.reset, .rdsr 0] }, rfl, rfl⟩

theorem witness_ByteViewIsLittleEndian : Memory.read loaded.img0 3 = some 0 ∧ Memory.byteView loaded.img0 3 = some 0x80 := by
  decide

end Sys2Proof.Tests
end

section
/-!
PROOFS. What a step of a running command is, and that it leaves the host's moves alone (00_scope.md R6; 43_host_interface.md R183).
-/

namespace Sys2Proof.Machine

/-! ### The block does not touch the host's moves (R6) -/

theorem encPixel_host {s t : State} (h : encPixel s = .ok t) : t.host = s.host := by
  obtain ⟨p, -, -, ⟨-, pb, -, -, rfl⟩ | ⟨-, rfl⟩⟩ := encPixel_ok_cases h
  · simp [afterEmbed]
  · simp [afterCopy]

theorem encStep_host {s t : State} (h : encStep s = .ok t) : t.host = s.host := by
  obtain ⟨-, rfl⟩ | ⟨-, h⟩ := encStep_ok_cases h
  · simp [encComplete]
  · exact encPixel_host h

theorem decPixel_host {s t : State} (h : decPixel s = .ok t) : t.host = s.host := by
  obtain ⟨p, -, -, ⟨-, -, rfl⟩ | ⟨-, rfl⟩⟩ := decPixel_ok_cases h
  · simp [afterEmit]
  · simp [afterGather]

theorem decComplete_host {s t : State} (h : decComplete s = .ok t) : t.host = s.host := by
  obtain ⟨-, rfl⟩ | ⟨-, -, rfl⟩ := decComplete_ok_cases h
  · simp
  · simp [afterPad]

theorem decStep_host {s t : State} (h : decStep s = .ok t) : t.host = s.host := by
  obtain ⟨-, h⟩ | ⟨-, -, rfl⟩ | ⟨-, -, h⟩ := decStep_ok_cases h
  · exact decComplete_host h
  · simp [decOverrun]
  · exact decPixel_host h

theorem blockStep_host {s t : State} (h : blockStep s = .next t) : t.host = s.host := by
  cases hp : s.phase with
  | idle => rw [blockStep_idle hp] at h; cases h; rfl
  | encRun => rw [blockStep_encRun hp] at h; exact encStep_host (settle_next_iff.1 h)
  | decRun => rw [blockStep_decRun hp] at h; exact decStep_host (settle_next_iff.1 h)

/-! ### The step of a running command (R22, R183) -/

/-- A `pass` is taken and gives the block the turn (log entry 1). -/
theorem step_pass {s : State} {rest : List HostMove} (hm : s.host = .pass :: rest) :
    step s = blockStep (setHost rest s) := by
  rw [step_taken hm (.inr rfl), ← blockTurn_eq]
  rfl

/-- While a command runs and the host waits, the step is `exec` of any command: the block's own step, the presented command being
held (R183). -/
theorem step_eq_exec_of_hostWaits {s : State} (hb : s.phase ≠ .idle) (hw : HostWaits s) (i : Instr) : step s = exec i s := by
  rw [step_hostWaits hb hw, exec_busy hb]

/-- While a command runs, the step that takes a `pass` is `exec` of any command with the `pass` taken. -/
theorem step_eq_exec_of_pass {s : State} {rest : List HostMove} (hb : s.phase ≠ .idle) (hm : s.host = .pass :: rest) (i : Instr) :
    step s = exec i (setHost rest s) := by
  rw [step_pass hm, exec_busy (by simpa using hb)]

theorem step_host_of_hostWaits {s t : State} (hb : s.phase ≠ .idle) (hw : HostWaits s) (h : step s = .next t) :
    t.host = s.host :=
  blockStep_host (step_hostWaits hb hw ▸ h)

/-- Settles O7: the step is the block step of the phase, which is what `exec` answers in a busy state; the block keeps the host's
moves in every case of its step. -/
theorem stepRunsRunningCommand : Obligations.StepRunsRunningCommand := by
  intro s i hrun
  have hb : s.phase ≠ .idle := by
    rcases hrun with ⟨hp, -⟩ | ⟨hp, -⟩ <;> simp [hp]
  refine ⟨fun hw => ⟨?_, ?_⟩, fun rest hm => ?_⟩
  · exact step_eq_exec_of_hostWaits hb hw i
  · exact fun t => step_host_of_hostWaits hb hw
  · exact step_eq_exec_of_pass hb hm i

end Sys2Proof.Machine
end

section
/-!
PROOFS. Every step keeps the invariant (10_state.md R36): what holds of the memories and the channel in every phase, the progress of
the cursor, the counters of each command, and the step put together from them.
-/

namespace Sys2Proof.Machine

/-! ### The part of the invariant that no phase qualifies -/

/-- What `Inv` says in every phase: canonical memories inside their capacities (R60), and a colour channel latched (R24). -/
structure StoreInv (s : State) : Prop where
  caps : s.caps.ok
  img0 : MemoryOk s.caps.imgCap s.img0
  img1 : MemoryOk s.caps.imgCap s.img1
  pay : MemoryOk s.caps.payCap s.pay
  out : MemoryOk s.caps.outCap s.out
  channel : s.rCh ≠ 3

theorem Inv.store {s : State} (h : Inv s) : StoreInv s := ⟨h.caps, h.img0, h.img1, h.pay, h.out, h.channel⟩

/-- In `IDLE` the invariant is its unqualified part. -/
theorem StoreInv.inv_of_idle {s : State} (h : StoreInv s) (hp : s.phase = .idle) : Inv s :=
  ⟨h.caps, h.img0, h.img1, h.pay, h.out, h.channel, fun hb => absurd hp hb, by simp [hp], by simp [hp]⟩

theorem StoreInv.inv_of_encRun {s : State} (h : StoreInv s) (hp : s.phase = .encRun) (hr : RunningInv s) (he : EncInv s) :
    Inv s :=
  ⟨h.caps, h.img0, h.img1, h.pay, h.out, h.channel, fun _ => hr, fun _ => he, by simp [hp]⟩

theorem StoreInv.inv_of_decRun {s : State} (h : StoreInv s) (hp : s.phase = .decRun) (hr : RunningInv s) (hd : DecInv s) :
    Inv s :=
  ⟨h.caps, h.img0, h.img1, h.pay, h.out, h.channel, fun _ => hr, by simp [hp], fun _ => hd⟩

/-- `t` has the capacities, the memories and the latched channel of `s`. -/
structure SameStore (t s : State) : Prop where
  caps : t.caps = s.caps
  img0 : t.img0 = s.img0
  img1 : t.img1 = s.img1
  pay : t.pay = s.pay
  out : t.out = s.out
  channel : t.rCh = s.rCh

theorem SameStore.storeInv {s t : State} (e : SameStore t s) (h : StoreInv s) : StoreInv t := by
  obtain ⟨hcaps, h0, h1, hpay, hout, hch⟩ := h
  constructor <;> simp only [e.caps, e.img0, e.img1, e.pay, e.out, e.channel] <;> assumption

theorem sameStore_complete (s : State) (c : Code) (l : BitVec 32) : SameStore (complete c l s) s :=
  ⟨rfl, rfl, rfl, rfl, rfl, rfl⟩

theorem sameStore_refuse (s : State) (c : Code) : SameStore (refuse c s) s := ⟨rfl, rfl, rfl, rfl, rfl, rfl⟩

/-- A write below the capacity keeps a memory canonical and inside it (R60). -/
theorem MemoryOk.write {w cap i : Nat} {m : Memory w} (h : MemoryOk cap m) (hi : i < cap) (v : BitVec w) :
    MemoryOk cap (Memory.write m i v) := ⟨Memory.write_wf i v h.1, Memory.write_below v hi h.2⟩

theorem StoreInv.bank {s : State} (h : StoreInv s) (b : Bit) : MemoryOk s.caps.imgCap (s.bank b) := by
  unfold State.bank
  split
  · exact h.img0
  · exact h.img1

theorem StoreInv.setBank {s : State} (h : StoreInv s) (b : Bit) {m : Memory 32} (hm : MemoryOk s.caps.imgCap m) :
    StoreInv (s.setBank b m) := by
  refine ⟨h.caps, ?_, ?_, h.pay, h.out, h.channel⟩
  · rw [setBank_img0]
    split
    · exact hm
    · exact h.img0
  · rw [setBank_img1]
    split
    · exact h.img1
    · exact hm

theorem StoreInv.writePixel {s : State} (h : StoreInv s) (b : Bit) {i : Nat} (hi : i < s.caps.imgCap) (v : Pixel) :
    StoreInv (s.setBank b (Memory.write (s.bank b) i v)) := h.setBank b ((h.bank b).write hi v)

theorem StoreInv.writePayload {s : State} (h : StoreInv s) {i : Nat} (hi : i < s.caps.payCap) (v : Byte) :
    StoreInv (s.setPay (Memory.write s.pay i v)) := ⟨h.caps, h.img0, h.img1, h.pay.write hi v, h.out, h.channel⟩

theorem StoreInv.writeOutput {s : State} (h : StoreInv s) {i : Nat} (hi : i < s.caps.outCap) (v : Byte) :
    StoreInv (s.setOut (Memory.write s.out i v)) := ⟨h.caps, h.img0, h.img1, h.pay, h.out.write hi v, h.channel⟩

/-- A host's write below the capacity (R185). -/
theorem StoreInv.writeByte {s : State} (h : StoreInv s) (m : ByteSpace) {i : Nat} (hi : i < byteCap s m) (v : Byte) :
    StoreInv (s.setBytes m (Memory.write (s.bytes m) i v)) := by
  cases m with
  | pay => exact h.writePayload hi v
  | out => exact h.writeOutput hi v

/-! ### What each block step stores (R60) -/

theorem storeInv_afterEmbed {s : State} (h : StoreInv s) (hi : idx s < s.caps.imgCap) (p : Pixel) (pb : Byte) :
    StoreInv (afterEmbed s p pb) :=
  SameStore.storeInv (by constructor <;> simp [afterEmbed])
    (h.writePixel (1 - s.rSel) hi (embed p s.rCh (bitAt pb s.bitIdx)))

theorem storeInv_afterCopy {s : State} (h : StoreInv s) (hi : idx s < s.caps.imgCap) (p : Pixel) :
    StoreInv (afterCopy s p) :=
  SameStore.storeInv (by constructor <;> simp [afterCopy]) (h.writePixel (1 - s.rSel) hi p)

theorem storeInv_afterGather {s : State} (h : StoreInv s) (p : Pixel) : StoreInv (afterGather s p) :=
  SameStore.storeInv (by constructor <;> simp [afterGather]) h

theorem storeInv_afterEmit {s : State} (h : StoreInv s) (ho : s.outLen.toNat < s.caps.outCap) (p : Pixel) :
    StoreInv (afterEmit s p) :=
  SameStore.storeInv (by constructor <;> simp [afterEmit]) (h.writeOutput ho (shiftIn s.acc (hiddenBit p s.rCh)))

theorem storeInv_afterPad {s : State} (h : StoreInv s) (ho : s.outLen.toNat < s.caps.outCap) : StoreInv (afterPad s) :=
  SameStore.storeInv (by constructor <;> simp [afterPad]) (h.writeOutput ho (padded s.acc s.n))

/-! ### The cursor (R36 items 2 and 3) -/

/-- `t` stands where `s` does: the same grid and cursor, and the same of what `RunningInv` reads beside them. -/
structure SameRun (t s : State) : Prop where
  rW : t.rW = s.rW
  rH : t.rH = s.rH
  x : t.x = s.x
  y : t.y = s.y
  caps : t.caps = s.caps
  code : t.code = s.code
  len : t.len = s.len

theorem SameRun.pixelsDone {s t : State} (e : SameRun t s) : pixelsDone t = pixelsDone s := by
  simp only [Machine.pixelsDone, exhausted_congr e.rW e.rH e.y, idx_congr e.rW e.x e.y, e.rW, e.rH]

theorem SameRun.runningInv {s t : State} (e : SameRun t s) (h : RunningInv s) : RunningInv t := by
  obtain ⟨hfits, hrow, hcolumn, hcode, hlen⟩ := h
  constructor <;> simp only [exhausted_congr e.rW e.rH e.y, e.rW, e.rH, e.x, e.y, e.caps, e.code, e.len] <;> assumption

/-- `advance` reads the grid and the cursor alone. -/
theorem SameRun.advance {s t : State} (e : SameRun t s) : SameRun (advance t) (advance s) := by
  constructor <;> simp only [advance_rW, advance_rH, advance_x, advance_y, advance_caps, advance_code, advance_len,
    rowGoesOn_congr e.rW e.x, e.rW, e.rH, e.x, e.y, e.caps, e.code, e.len]

/-- At the first pixel no pixel step has been taken, in an empty grid too. -/
theorem pixelsDone_origin {s : State} (hx : s.x = 0) (hy : s.y = 0) : pixelsDone s = 0 := by
  unfold pixelsDone
  split
  · rename_i he
    rcases (exhausted_iff s).1 he with hw | hh
    · simp [npix, hw]
    · have : s.rH.toNat = 0 := by simpa [hy] using hh
      simp [npix, this]
  · simp [idx, hx, hy]

theorem pixelsDone_of_exhausted {s : State} (h : exhausted s = true) : pixelsDone s = npix s.rW s.rH := if_pos h

theorem pixelsDone_of_not_exhausted {s : State} (h : exhausted s = false) : pixelsDone s = idx s := by simp [pixelsDone, h]

/-- A pixel step moves the cursor on by one pixel (R134), past the last one into exhaustion (R133). -/
theorem pixelsDone_advance {s : State} (h : RunningInv s) (he : exhausted s = false) :
    pixelsDone (advance s) = pixelsDone s + 1 := by
  obtain ⟨hw, hy⟩ := (not_exhausted_iff s).1 he
  have hx := h.column he
  rw [pixelsDone_of_not_exhausted he]
  by_cases hrow : s.x.toNat + 1 < s.rW.toNat
  · obtain ⟨hx', hy'⟩ := advance_in_row hrow
    have he' : exhausted (advance s) = false := by
      rw [not_exhausted_iff, advance_rW, advance_rH, hy']
      exact ⟨hw, hy⟩
    rw [pixelsDone_of_not_exhausted he']
    simp only [idx, hx', hy', advance_rW]
    omega
  · obtain ⟨hx', hy'⟩ := advance_at_row_end (Nat.le_of_not_lt hrow) hy
    have hrows : (s.y.toNat + 1) * s.rW.toNat = idx s + 1 := by
      rw [Nat.succ_mul, idx]
      omega
    by_cases hlast : s.y.toNat + 1 < s.rH.toNat
    · have he' : exhausted (advance s) = false := by
        rw [not_exhausted_iff, advance_rW, advance_rH, hy']
        exact ⟨hw, hlast⟩
      rw [pixelsDone_of_not_exhausted he', ← hrows, idx, hx', hy', advance_rW]
      rfl
    · have he' : exhausted (advance s) = true := by
        rw [exhausted_iff, advance_rH, hy']
        omega
      have hh : s.rH.toNat = s.y.toNat + 1 := by omega
      rw [pixelsDone_of_exhausted he', advance_rW, advance_rH, npix, hh, Nat.mul_comm, hrows]

/-- A pixel step keeps the cursor in the grid (R36 item 3). -/
theorem RunningInv.advance {s : State} (h : RunningInv s) (he : exhausted s = false) : RunningInv (advance s) := by
  obtain ⟨hw, hy⟩ := (not_exhausted_iff s).1 he
  have hx := h.column he
  by_cases hrow : s.x.toNat + 1 < s.rW.toNat
  · obtain ⟨hx', hy'⟩ := advance_in_row hrow
    refine ⟨h.fits, ?_, fun _ => ?_, h.code, h.len⟩
    · rw [hy']; exact h.row
    · rw [hx']; exact hrow
  · obtain ⟨hx', hy'⟩ := advance_at_row_end (Nat.le_of_not_lt hrow) hy
    refine ⟨h.fits, ?_, fun _ => ?_, h.code, h.len⟩
    · rw [hy']; exact hy
    · rw [hx', advance_rW]
      exact Nat.lt_of_le_of_lt (Nat.zero_le _) hx

/-- The four states a pixel step leaves stand where `advance s` does. -/
theorem sameRun_afterEmbed (s : State) (p : Pixel) (pb : Byte) : SameRun (afterEmbed s p pb) (advance s) :=
  SameRun.advance (by constructor <;> simp)

theorem sameRun_afterCopy (s : State) (p : Pixel) : SameRun (afterCopy s p) (advance s) :=
  SameRun.advance (by constructor <;> simp)

theorem sameRun_afterGather (s : State) (p : Pixel) : SameRun (afterGather s p) (advance s) :=
  SameRun.advance (by constructor <;> simp)

theorem sameRun_afterEmit (s : State) (p : Pixel) : SameRun (afterEmit s p) (advance s) :=
  SameRun.advance (by constructor <;> simp)

/-- A start puts the cursor on the first pixel with code and length 0 (R181). -/
theorem runningInv_accept {s : State} (ph : Phase) (ch : BitVec 2) (sel : Bit) {w h : BitVec 16} (n : BitVec 32)
    (hfits : npix w h ≤ s.caps.imgCap) : RunningInv (accept ph ch sel w h n s) := by
  refine ⟨hfits, Nat.zero_le _, fun he => ?_, rfl, rfl⟩
  have hw : w ≠ 0 := ((not_exhausted_iff _).1 he).1
  exact Nat.pos_of_ne_zero fun h0 => hw (BitVec.eq_of_toNat_eq h0)

/-! ### The encoder (R36 item 4) -/

/-- `bitsEmbedded` reads the two counters alone. -/
theorem bitsEmbedded_congr {s t : State} (hbyte : t.byteIdx = s.byteIdx) (hbit : t.bitIdx = s.bitIdx) :
    bitsEmbedded t = bitsEmbedded s := by
  simp only [bitsEmbedded, hbyte, hbit]

/-- One more payload bit is counted, where the byte counter does not wrap (R24). -/
theorem bitsEmbedded_countBit {s : State} (h : s.byteIdx.toNat < s.rN.toNat) :
    bitsEmbedded (countBit s) = bitsEmbedded s + 1 := by
  unfold bitsEmbedded
  by_cases hb : s.bitIdx = 7
  · obtain ⟨hbit, hbyte⟩ := countBit_wrap hb
    have hbyte' : (s.byteIdx + 1).toNat = s.byteIdx.toNat + 1 := by bv_omega
    have hseven : s.bitIdx.toNat = 7 := by rw [hb]; rfl
    rw [hbit, hbyte, hbyte', hseven]
    rfl
  · obtain ⟨hbit, hbyte⟩ := countBit_next hb
    rw [hbit, hbyte]
    omega

theorem countBit_byteIdx_le {s : State} (h : s.byteIdx.toNat < s.rN.toNat) : (countBit s).byteIdx.toNat ≤ s.rN.toNat := by
  rw [countBit_byteIdx]
  split
  · bv_omega
  · exact Nat.le_of_lt h

/-- The embed arm counts one bit and one pixel; before it fewer than `8 * r_n` bits are embedded, so both sides go up. -/
theorem encInv_afterEmbed {s : State} (h : EncInv s) (hr : RunningInv s) (he : exhausted s = false)
    (hp : payloadRemains s = true) (p : Pixel) (pb : Byte) : EncInv (afterEmbed s p pb) := by
  have hlt := (payloadRemains_iff s).1 hp
  have hN : (afterEmbed s p pb).rN = s.rN := by simp [afterEmbed]
  have hbyte : (afterEmbed s p pb).byteIdx = (countBit s).byteIdx := rfl
  have hbits : bitsEmbedded (afterEmbed s p pb) = bitsEmbedded s + 1 :=
    (bitsEmbedded_congr hbyte rfl).trans (bitsEmbedded_countBit hlt)
  have hdone : pixelsDone (afterEmbed s p pb) = pixelsDone s + 1 :=
    (sameRun_afterEmbed _ p pb).pixelsDone.trans (pixelsDone_advance hr he)
  have hroom : bitsEmbedded s < 8 * s.rN.toNat := by
    have := s.bitIdx.isLt
    unfold bitsEmbedded
    omega
  refine ⟨?_, ?_, by simpa [afterEmbed] using h.fits⟩
  · rw [hbyte, hN]
    exact countBit_byteIdx_le hlt
  · rw [hbits, hdone, hN]
    have := h.embedded
    omega

/-- The copy arm counts no bit: `8 * r_n` bits are embedded already. -/
theorem encInv_afterCopy {s : State} (h : EncInv s) (hr : RunningInv s) (he : exhausted s = false)
    (hp : payloadRemains s = false) (p : Pixel) : EncInv (afterCopy s p) := by
  have hge := (not_payloadRemains_iff s).1 hp
  have hN : (afterCopy s p).rN = s.rN := rfl
  have hbits : bitsEmbedded (afterCopy s p) = bitsEmbedded s := bitsEmbedded_congr rfl rfl
  have hdone : pixelsDone (afterCopy s p) = pixelsDone s + 1 :=
    (sameRun_afterCopy _ p).pixelsDone.trans (pixelsDone_advance hr he)
  have hfull : 8 * s.rN.toNat ≤ bitsEmbedded s := by
    unfold bitsEmbedded
    omega
  refine ⟨h.byteIdx, ?_, by simpa [afterCopy] using h.fits⟩
  rw [hbits, hdone, hN]
  have := h.embedded
  omega

theorem encInv_accept {s : State} (ph : Phase) (ch : BitVec 2) (sel : Bit) {w h : BitVec 16} {n : BitVec 32}
    (hfits : payloadNeed w h n ≤ s.caps.payCap) : EncInv (accept ph ch sel w h n s) := by
  refine ⟨Nat.zero_le _, ?_, hfits⟩
  rw [pixelsDone_origin rfl rfl, Nat.min_zero]
  rfl

/-- An `ENC` step that goes on keeps the invariant: a pixel step stays in the run, a completion leaves the memories alone. -/
theorem encStep_keeps_inv {s t : State} (h : Inv s) (hp : s.phase = .encRun) (hs : encStep s = .ok t) : Inv t := by
  have hr := h.running (by simp [hp])
  have henc := h.encoding hp
  obtain ⟨-, rfl⟩ | ⟨he, hs⟩ := encStep_ok_cases hs
  · exact ((sameStore_complete s _ _).storeInv h.store).inv_of_idle rfl
  · have hrun := hr.advance he
    obtain ⟨p, hi, -, ⟨hrem, pb, -, -, rfl⟩ | ⟨hrem, rfl⟩⟩ := encPixel_ok_cases hs
    · exact (storeInv_afterEmbed h.store hi p pb).inv_of_encRun hp
        ((sameRun_afterEmbed ..).runningInv hrun) (encInv_afterEmbed henc hr he hrem p pb)
    · exact (storeInv_afterCopy h.store hi p).inv_of_encRun hp
        ((sameRun_afterCopy ..).runningInv hrun) (encInv_afterCopy henc hr he hrem p)

/-! ### The decoder (R36 item 5) -/

/-- A gathered bit makes the accumulator one bit longer (R153). -/
theorem shiftIn_lt {acc : Byte} {k : Nat} (h : acc.toNat < 2 ^ k) (b : Bit) : (shiftIn acc b).toNat < 2 ^ (k + 1) := by
  have hacc : (acc <<< 1).toNat < 2 ^ (k + 1) := by
    rw [BitVec.toNat_shiftLeft, Nat.shiftLeft_eq, Nat.pow_succ]
    exact Nat.lt_of_le_of_lt (Nat.mod_le _ _) (by omega)
  have hb : (b.setWidth 8).toNat < 2 ^ (k + 1) := by
    rw [BitVec.toNat_setWidth_of_le (by decide)]
    exact Nat.lt_of_lt_of_le b.isLt (Nat.pow_le_pow_right (by decide) (by omega))
  rw [shiftIn, BitVec.toNat_or]
  exact Nat.or_lt_two_pow hacc hb

/-- A pixel step is taken only below the bit count, so `bits_read` does not wrap. -/
theorem DecInv.bitsRead_succ {s : State} (h : DecInv s) (hc : s.bitsRead ≠ s.rN) :
    (s.bitsRead + 1).toNat = s.bitsRead.toNat + 1 ∧ s.bitsRead.toNat < s.rN.toNat := by
  have := h.count
  bv_omega

/-- A bit inside a byte: the byte count stays, `n` and the accumulator grow by one bit. -/
theorem decInv_afterGather {s : State} (h : DecInv s) (hr : RunningInv s) (he : exhausted s = false)
    (hc : s.bitsRead ≠ s.rN) (hn : s.n ≠ 7) (p : Pixel) : DecInv (afterGather s p) := by
  obtain ⟨hsucc, hlt⟩ := h.bitsRead_succ hc
  have hdone : pixelsDone (afterGather s p) = pixelsDone s + 1 :=
    (sameRun_afterGather _ p).pixelsDone.trans (pixelsDone_advance hr he)
  have hn' : (s.n + 1).toNat = s.n.toNat + 1 ∧ s.n.toNat < 7 := by bv_omega
  have hpend := h.pending
  refine ⟨?_, ?_, ?_, ?_, ?_, by simpa [afterGather] using h.fits⟩
  · rw [hdone, ← h.bitsRead]
    exact hsucc
  · change (s.bitsRead + 1).toNat ≤ s.rN.toNat
    omega
  · change (s.n + 1).toNat = (s.bitsRead + 1).toNat % 8
    omega
  · change s.outLen.toNat = (s.bitsRead + 1).toNat / 8
    have := h.outLen
    omega
  · change (shiftIn s.acc _).toNat < 2 ^ (s.n + 1).toNat
    rw [hn'.1]
    exact shiftIn_lt h.acc _

/-- The eighth bit of a byte: the byte count goes up, nothing is pending. -/
theorem decInv_afterEmit {s : State} (h : DecInv s) (hr : RunningInv s) (he : exhausted s = false)
    (hc : s.bitsRead ≠ s.rN) (hn : s.n = 7) (p : Pixel) : DecInv (afterEmit s p) := by
  obtain ⟨hsucc, hlt⟩ := h.bitsRead_succ hc
  have hdone : pixelsDone (afterEmit s p) = pixelsDone s + 1 :=
    (sameRun_afterEmit _ p).pixelsDone.trans (pixelsDone_advance hr he)
  have hpend : s.bitsRead.toNat % 8 = 7 := by rw [← h.pending, hn]; rfl
  have hout := h.outLen
  refine ⟨?_, ?_, ?_, ?_, ?_, by simpa [afterEmit] using h.fits⟩
  · rw [hdone, ← h.bitsRead]
    exact hsucc
  · change (s.bitsRead + 1).toNat ≤ s.rN.toNat
    omega
  · change 0 = (s.bitsRead + 1).toNat % 8
    omega
  · change (s.outLen + 1).toNat = (s.bitsRead + 1).toNat / 8
    have hout' : (s.outLen + 1).toNat = s.outLen.toNat + 1 := by
      have := s.bitsRead.isLt
      bv_omega
    omega
  · exact Nat.one_pos

theorem decInv_accept {s : State} (ph : Phase) (ch : BitVec 2) (sel : Bit) {w h : BitVec 16} {n : BitVec 32}
    (hfits : outputNeed w h n ≤ s.caps.outCap) : DecInv (accept ph ch sel w h n s) := by
  refine ⟨?_, Nat.zero_le _, rfl, (by decide : 0 = 0 / 8), Nat.one_pos, hfits⟩
  rw [pixelsDone_origin rfl rfl]
  rfl

/-- A normal completion that goes on keeps the memories well formed, with or without a padded byte. -/
theorem decComplete_keeps_inv {s t : State} (h : Inv s) (hs : decComplete s = .ok t) : Inv t := by
  obtain ⟨-, rfl⟩ | ⟨-, ho, rfl⟩ := decComplete_ok_cases hs
  · exact ((sameStore_complete s _ _).storeInv h.store).inv_of_idle rfl
  · exact (storeInv_afterPad h.store ho).inv_of_idle rfl

/-- A `DEC` step that goes on keeps the invariant. -/
theorem decStep_keeps_inv {s t : State} (h : Inv s) (hp : s.phase = .decRun) (hs : decStep s = .ok t) : Inv t := by
  have hr := h.running (by simp [hp])
  have hdec := h.decoding hp
  obtain ⟨-, hs⟩ | ⟨-, -, rfl⟩ | ⟨hc, he, hs⟩ := decStep_ok_cases hs
  · exact decComplete_keeps_inv h hs
  · exact ((sameStore_complete s _ _).storeInv h.store).inv_of_idle rfl
  · have hcount := (not_countReached_iff s).1 hc
    have hrun := hr.advance he
    obtain ⟨p, -, -, ⟨hn, ho, rfl⟩ | ⟨hn, rfl⟩⟩ := decPixel_ok_cases hs
    · exact (storeInv_afterEmit h.store ho p).inv_of_decRun hp
        ((sameRun_afterEmit ..).runningInv hrun) (decInv_afterEmit hdec hr he hcount hn p)
    · exact (storeInv_afterGather h.store p).inv_of_decRun hp
        ((sameRun_afterGather ..).runningInv hrun) (decInv_afterGather hdec hr he hcount hn p)

/-! ### `exec` -/

theorem blockStep_keeps_inv {s t : State} (h : Inv s) (hs : blockStep s = .next t) : Inv t := by
  cases hp : s.phase with
  | idle => rw [blockStep_idle hp] at hs; cases hs; exact h
  | encRun => rw [blockStep_encRun hp] at hs; exact encStep_keeps_inv h hp (settle_next_iff.1 hs)
  | decRun => rw [blockStep_decRun hp] at hs; exact decStep_keeps_inv h hp (settle_next_iff.1 hs)

theorem refuse_keeps_inv {s : State} (h : Inv s) (hp : s.phase = .idle) (c : Code) : Inv (refuse c s) :=
  ((sameStore_refuse s c).storeInv h.store).inv_of_idle hp

theorem storeInv_accept {s : State} (h : StoreInv s) (ph : Phase) {ch : BitVec 2} (hch : ch ≠ 3) (sel : Bit)
    (w hh : BitVec 16) (n : BitVec 32) : StoreInv (accept ph ch sel w hh n s) :=
  ⟨h.caps, h.img0, h.img1, h.pay, h.out, hch⟩

/-- A start keeps the invariant where its accepting arm does: a refusal changes `code` and `len` only. -/
theorem start_keeps_inv {s : State} (h : Inv s) (hp : s.phase = .idle) {ph : Phase} {fits : Bool} {ch : BitVec 2} {sel : Bit}
    {w hh : BitVec 16} {n : BitVec 32} (hacc : ch ≠ 3 → fits = true → Inv (accept ph ch sel w hh n s)) :
    Inv (start ph fits ch sel w hh n s) := by
  obtain ⟨-, he⟩ | ⟨-, -, he⟩ | ⟨hch, hf, he⟩ := start_cases ph fits ch sel w hh n s
  · rw [he]; exact refuse_keeps_inv h hp _
  · rw [he]; exact refuse_keeps_inv h hp _
  · rw [he]; exact hacc hch hf

/-- A command in `IDLE` keeps the invariant: `admissible` (R182) is what the running invariant asks of the sizes. -/
theorem exec_idle_keeps_inv {s t : State} (h : Inv s) (hp : s.phase = .idle) {i : Instr} (hs : exec i s = .next t) : Inv t := by
  rw [exec_idle hp] at hs
  cases hs
  cases i with
  | enc ch sel w hh n =>
    refine start_keeps_inv h hp fun hch hf => ?_
    obtain ⟨himg, hpay⟩ := (encAdmissible_iff w hh n s.caps).1 hf
    exact (storeInv_accept h.store _ hch ..).inv_of_encRun rfl (runningInv_accept _ _ _ _ himg) (encInv_accept _ _ _ hpay)
  | dec ch sel w hh n =>
    refine start_keeps_inv h hp fun hch hf => ?_
    obtain ⟨himg, hout⟩ := (decAdmissible_iff w hh n s.caps).1 hf
    exact (storeInv_accept h.store _ hch ..).inv_of_decRun rfl (runningInv_accept _ _ _ _ himg) (decInv_accept _ _ _ hout)

/-! ### The host's moves -/

theorem issue_keeps_inv {s t : State} (h : Inv s) (hp : s.phase = .idle) {d : Descriptor} (hs : issue d s = .next t) : Inv t := by
  unfold issue at hs
  split at hs
  · exact exec_idle_keeps_inv h hp hs
  · cases hs; exact refuse_keeps_inv h hp _

/-- The invariant does not read the host's coming moves or what was returned to the host. -/
theorem Inv.withPorts {s : State} (h : Inv s) (hs : List HostMove) (rs : List Reply) :
    Inv { s with host := hs, replies := rs } := by
  refine ⟨h.caps, h.img0, h.img1, h.pay, h.out, h.channel, fun hp => ?_, fun hp => ?_, fun hp => ?_⟩
  · obtain ⟨hfits, hrow, hcolumn, hcode, hlen⟩ := h.running hp
    exact ⟨hfits, hrow, hcolumn, hcode, hlen⟩
  · obtain ⟨hbyte, hembedded, hfits⟩ := h.encoding hp
    exact ⟨hbyte, hembedded, hfits⟩
  · obtain ⟨hread, hcount, hpending, hout, hacc, hfits⟩ := h.decoding hp
    exact ⟨hread, hcount, hpending, hout, hacc, hfits⟩

theorem setHost_keeps_inv {s : State} (h : Inv s) (hs : List HostMove) : Inv (setHost hs s) := h.withPorts hs s.replies

theorem reply_keeps_inv {s : State} (h : Inv s) (r : Reply) : Inv (reply r s) := h.withPorts s.host (r :: s.replies)

theorem resetRegisters_keeps_inv {s : State} (h : Inv s) : Inv (resetRegisters s) :=
  StoreInv.inv_of_idle ⟨h.caps, h.img0, h.img1, h.pay, h.out, (by decide : (0 : BitVec 2) ≠ 3)⟩ rfl

/-! ### What each host access can do (R185) -/

theorem hostReadPixel_ok_iff {s t : State} {b : Bit} {i : Index} :
    hostReadPixel b i s = .ok t ↔ i.toNat < s.caps.imgCap ∧ t = reply (.pixel (hostPixel s b i)) s := by
  unfold hostReadPixel
  split <;> simp_all [eq_comm]

theorem hostReadByte_ok_iff {s t : State} {m : ByteSpace} {i : Index} :
    hostReadByte m i s = .ok t ↔ i.toNat < byteCap s m ∧ t = reply (.byte (hostByte s m i)) s := by
  unfold hostReadByte
  split <;> simp_all [eq_comm]

theorem hostWritePixel_ok_iff {s t : State} {b : Bit} {i : Index} {v : Pixel} :
    hostWritePixel b i v s = .ok t ↔
      i.toNat < s.caps.imgCap ∧ t = s.setBank b (Memory.write (s.bank b) i.toNat v) := by
  unfold hostWritePixel
  split <;> simp_all [eq_comm]

theorem hostWriteByte_ok_iff {s t : State} {m : ByteSpace} {i : Index} {v : Byte} :
    hostWriteByte m i v s = .ok t ↔
      i.toNat < byteCap s m ∧ t = s.setBytes m (Memory.write (s.bytes m) i.toNat v) := by
  unfold hostWriteByte
  split <;> simp_all [eq_comm]

@[simp] theorem setBytes_phase (s : State) (b : ByteSpace) (m : Memory 8) : (s.setBytes b m).phase = s.phase := by
  cases b <;> rfl

/-- A host move that is taken keeps the invariant; the moves that need `IDLE` are taken in `IDLE` only (R69, R183). -/
theorem hostStep_keeps_inv {s t : State} {m : HostMove} (h : Inv s) (hm : s.phase = .idle ∨ heldWhileBusy m = false)
    (hs : hostStep m s = .next t) : Inv t := by
  have hidle : heldWhileBusy m = true → s.phase = .idle := fun hh => hm.resolve_right (by simp [hh])
  cases m with
  | pass => exact blockStep_keeps_inv h (blockTurn_eq s ▸ hs)
  | issue d => exact issue_keeps_inv h (hidle rfl) hs
  | rdsr k => cases hs; exact reply_keeps_inv h _
  | hrdPixel b i =>
    obtain ⟨-, rfl⟩ := hostReadPixel_ok_iff.1 (settle_next_iff.1 hs)
    exact reply_keeps_inv h _
  | hrdByte sp i =>
    obtain ⟨-, rfl⟩ := hostReadByte_ok_iff.1 (settle_next_iff.1 hs)
    exact reply_keeps_inv h _
  | hwrPixel b i v =>
    obtain ⟨hi, rfl⟩ := hostWritePixel_ok_iff.1 (settle_next_iff.1 hs)
    exact (h.store.writePixel b hi v).inv_of_idle (hidle rfl)
  | hwrByte sp i v =>
    obtain ⟨hi, rfl⟩ := hostWriteByte_ok_iff.1 (settle_next_iff.1 hs)
    exact (h.store.writeByte sp hi v).inv_of_idle (by simpa using hidle rfl)
  | reset => cases hs; exact resetRegisters_keeps_inv h

/-- Settles O28: a step is the block's or one host move, and each keeps the invariant. -/
theorem stepKeepsInvariant : Obligations.StepKeepsInvariant := by
  intro s t h hs
  obtain ⟨-, -, he⟩ | ⟨m, rest, -, hm, he⟩ := step_cases s
  · exact blockStep_keeps_inv h (he ▸ hs)
  · exact hostStep_keeps_inv (setHost_keeps_inv h rest) hm (he ▸ hs)

/-- Settles O26: at power-on no element is written, the latched channel is 0 and no command runs. -/
theorem powerOnMeetsInvariant : Obligations.PowerOnMeetsInvariant :=
  StoreInv.inv_of_idle ⟨by decide, by decide, by decide, by decide, by decide, by decide⟩ rfl

end Sys2Proof.Machine
end

section
/-!
PROOFS. What the steps of a running command leave unchanged (10_state.md R22, R33), and the block in `IDLE`: it takes no step (R21, R231)
and reads no hidden register (R32).
-/

namespace Sys2Proof.Machine

/-! ### The frame of an `ENC` step (R135, R136) -/

/-- `t` has the latched operands of `s` (R22). -/
structure SameOperands (t s : State) : Prop where
  rCh : t.rCh = s.rCh
  rSel : t.rSel = s.rSel
  rW : t.rW = s.rW
  rH : t.rH = s.rH
  rN : t.rN = s.rN

/-- What every `ENC` step from `s` to `t` leaves alone. -/
structure EncFrame (s t : State) : Prop where
  operands : SameOperands t s
  acc : t.acc = s.acc
  n : t.n = s.n
  bitsRead : t.bitsRead = s.bitsRead
  outLen : t.outLen = s.outLen
  source : t.bank s.rSel = s.bank s.rSel
  pay : t.pay = s.pay
  out : t.out = s.out
  caps : t.caps = s.caps
  host : t.host = s.host
  replies : t.replies = s.replies
  destination : ∀ k, k ≠ idx s → Memory.read (t.bank (1 - s.rSel)) k = Memory.read (s.bank (1 - s.rSel)) k

theorem encFrame_complete (s : State) (c : Code) (l : BitVec 32) : EncFrame s (complete c l s) :=
  ⟨⟨rfl, rfl, rfl, rfl, rfl⟩, rfl, rfl, rfl, rfl, rfl, rfl, rfl, rfl, rfl, rfl, fun _ _ => rfl⟩

theorem encFrame_afterEmbed (s : State) (p : Pixel) (pb : Byte) : EncFrame s (afterEmbed s p pb) := by
  constructor
  case operands => constructor <;> simp [afterEmbed]
  case source => rw [afterEmbed, advance_bank, countBit_bank, State.source_setBank_other]
  case destination =>
    intro k hk
    simp [afterEmbed, Memory.read_write_other _ _ _ _ hk]
  all_goals simp [afterEmbed]

theorem encFrame_afterCopy (s : State) (p : Pixel) : EncFrame s (afterCopy s p) := by
  constructor
  case operands => constructor <;> simp [afterCopy]
  case source => rw [afterCopy, advance_bank, State.source_setBank_other]
  case destination =>
    intro k hk
    simp [afterCopy, Memory.read_write_other _ _ _ _ hk]
  all_goals simp [afterCopy]

theorem encStep_frame {s t : State} (h : encStep s = .ok t) : EncFrame s t := by
  obtain ⟨-, rfl⟩ | ⟨-, h⟩ := encStep_ok_cases h
  · exact encFrame_complete s _ _
  · obtain ⟨p, -, -, ⟨-, pb, -, -, rfl⟩ | ⟨-, rfl⟩⟩ := encPixel_ok_cases h
    · exact encFrame_afterEmbed s p pb
    · exact encFrame_afterCopy s p

/-- A completion step changes `phase`, `code` and `len` only (R136). -/
theorem encStep_complete_frame {s t : State} (h : encStep s = .ok t) (he : exhausted s = true) :
    t = { s with phase := t.phase, code := t.code, len := t.len } := by
  rw [encStep_complete he] at h
  cases h
  rfl

/-- A pixel step leaves the status alone, and the counters too where no payload is left (R135). -/
theorem encStep_pixel_frame {s t : State} (h : encStep s = .ok t) (he : exhausted s = false) :
    t.phase = s.phase ∧ t.code = s.code ∧ t.len = s.len ∧
      (s.rN.toNat ≤ s.byteIdx.toNat → t.byteIdx = s.byteIdx ∧ t.bitIdx = s.bitIdx) := by
  rw [encStep_pixel he] at h
  obtain ⟨p, -, -, ⟨hr, pb, -, -, rfl⟩ | ⟨-, rfl⟩⟩ := encPixel_ok_cases h
  · have hlt := (payloadRemains_iff s).1 hr
    exact ⟨by simp [afterEmbed], by simp [afterEmbed], by simp [afterEmbed], fun hle => absurd hlt (Nat.not_lt.2 hle)⟩
  · simp [afterCopy]

/-- Settles O33: the frame common to every `ENC` step, then what the completion and the pixel step add to it. -/
theorem encStepFrame : Obligations.EncStepFrame := by
  intro s t ch sel w h n hp hs
  rw [exec_encRun hp, settle_next_iff] at hs
  obtain ⟨⟨hch, hsel, hw, hh, hn⟩, hacc, hpend, hread, hlen, hsrc, hpay, hout, hcaps, hhost, hreplies, hdst⟩ :=
    encStep_frame hs
  exact ⟨hch, hsel, hw, hh, hn, hacc, hpend, hread, hlen, hsrc, hpay, hout, hcaps, hhost, hreplies, hdst,
    encStep_complete_frame hs, encStep_pixel_frame hs⟩

/-! ### The frame of a `DEC` step (R153 to R155) -/

/-- What every `DEC` step from `s` to `t` leaves alone. -/
structure DecFrame (s t : State) : Prop where
  operands : SameOperands t s
  byteIdx : t.byteIdx = s.byteIdx
  bitIdx : t.bitIdx = s.bitIdx
  img0 : t.img0 = s.img0
  img1 : t.img1 = s.img1
  pay : t.pay = s.pay
  caps : t.caps = s.caps
  host : t.host = s.host
  replies : t.replies = s.replies
  output : ∀ j, j ≠ s.outLen.toNat → Memory.read t.out j = Memory.read s.out j

theorem decFrame_complete (s : State) (c : Code) (l : BitVec 32) : DecFrame s (complete c l s) :=
  ⟨⟨rfl, rfl, rfl, rfl, rfl⟩, rfl, rfl, rfl, rfl, rfl, rfl, rfl, rfl, fun _ _ => rfl⟩

theorem decFrame_afterPad (s : State) : DecFrame s (afterPad s) := by
  constructor
  case operands => constructor <;> simp [afterPad]
  case output =>
    intro j hj
    simp [afterPad, Memory.read_write_other _ _ _ _ hj]
  all_goals simp [afterPad]

theorem decFrame_afterEmit (s : State) (p : Pixel) : DecFrame s (afterEmit s p) := by
  constructor
  case operands => constructor <;> simp [afterEmit]
  case output =>
    intro j hj
    simp [afterEmit, Memory.read_write_other _ _ _ _ hj]
  all_goals simp [afterEmit]

theorem decFrame_afterGather (s : State) (p : Pixel) : DecFrame s (afterGather s p) := by
  constructor
  case operands => constructor <;> simp [afterGather]
  all_goals simp [afterGather]

theorem decStep_frame {s t : State} (h : decStep s = .ok t) : DecFrame s t := by
  obtain ⟨-, h⟩ | ⟨-, -, rfl⟩ | ⟨-, -, h⟩ := decStep_ok_cases h
  · obtain ⟨-, rfl⟩ | ⟨-, -, rfl⟩ := decComplete_ok_cases h
    · exact decFrame_complete s _ _
    · exact decFrame_afterPad s
  · exact decFrame_complete s _ _
  · obtain ⟨p, -, -, ⟨-, -, rfl⟩ | ⟨-, rfl⟩⟩ := decPixel_ok_cases h
    · exact decFrame_afterEmit s p
    · exact decFrame_afterGather s p

/-- A normal completion with nothing pending writes no byte (R154). -/
theorem decStep_whole_out {s t : State} (h : decStep s = .ok t) (hc : s.bitsRead = s.rN) (hn : s.n = 0) :
    t.out = s.out ∧ t.outLen = s.outLen := by
  rw [decStep_complete ((countReached_iff s).2 hc), decComplete_whole hn] at h
  cases h
  exact ⟨rfl, rfl⟩

/-- An overrun writes no byte (R155). -/
theorem decStep_overrun_out {s t : State} (h : decStep s = .ok t) (hc : s.bitsRead ≠ s.rN) (he : exhausted s = true) :
    t.out = s.out ∧ t.outLen = s.outLen := by
  rw [decStep_overrun ((not_countReached_iff s).2 hc) he] at h
  cases h
  exact ⟨rfl, rfl⟩

/-- Below the bit count only the eighth bit of a byte writes one (R153). -/
theorem decStep_gather_out {s t : State} (h : decStep s = .ok t) (hc : s.bitsRead ≠ s.rN) (hn : s.n ≠ 7) :
    t.out = s.out ∧ t.outLen = s.outLen := by
  cases he : exhausted s with
  | true => exact decStep_overrun_out h hc he
  | false =>
    rw [decStep_pixel ((not_countReached_iff s).2 hc) he] at h
    obtain ⟨p, -, -, ⟨h7, -, -⟩ | ⟨-, rfl⟩⟩ := decPixel_ok_cases h
    · exact absurd h7 hn
    · exact ⟨rfl, rfl⟩

/-- A completion step leaves the cursor and the pending bits alone (R154, R155). -/
theorem decStep_completion_registers {s t : State} (h : decStep s = .ok t) (hc : s.bitsRead = s.rN ∨ exhausted s = true) :
    t.x = s.x ∧ t.y = s.y ∧ t.acc = s.acc ∧ t.n = s.n ∧ t.bitsRead = s.bitsRead := by
  obtain ⟨-, h⟩ | ⟨-, -, rfl⟩ | ⟨hc', he, -⟩ := decStep_ok_cases h
  · obtain ⟨-, rfl⟩ | ⟨-, -, rfl⟩ := decComplete_ok_cases h
    · exact ⟨rfl, rfl, rfl, rfl, rfl⟩
    · simp [afterPad]
  · exact ⟨rfl, rfl, rfl, rfl, rfl⟩
  · rcases hc with hc | hc
    · exact absurd hc ((not_countReached_iff s).1 hc')
    · rw [he] at hc; cases hc

/-- A pixel step leaves the status alone (R153). -/
theorem decStep_pixel_status {s t : State} (h : decStep s = .ok t) (hc : s.bitsRead ≠ s.rN) (he : exhausted s = false) :
    t.phase = s.phase ∧ t.code = s.code ∧ t.len = s.len := by
  rw [decStep_pixel ((not_countReached_iff s).2 hc) he] at h
  obtain ⟨p, -, -, ⟨-, -, rfl⟩ | ⟨-, rfl⟩⟩ := decPixel_ok_cases h
  · simp [afterEmit]
  · simp [afterGather]

/-- Settles O34: the frame common to every `DEC` step, then what each of its five cases adds to it. -/
theorem decStepFrame : Obligations.DecStepFrame := by
  intro s t ch sel w h n hp hs
  rw [exec_decRun hp, settle_next_iff] at hs
  obtain ⟨⟨hch, hsel, hw, hh, hn⟩, hbyte, hbit, himg0, himg1, hpay, hcaps, hhost, hreplies, hout⟩ := decStep_frame hs
  exact ⟨hch, hsel, hw, hh, hn, hbyte, hbit, himg0, himg1, hpay, hcaps, hhost, hreplies, hout,
    decStep_whole_out hs, decStep_overrun_out hs, decStep_gather_out hs, decStep_completion_registers hs,
    decStep_pixel_status hs⟩

/-! ### The latched operands (R22, R33) -/

theorem blockStep_operands {s t : State} (h : blockStep s = .next t) : SameOperands t s := by
  cases hp : s.phase with
  | idle => rw [blockStep_idle hp] at h; cases h; exact ⟨rfl, rfl, rfl, rfl, rfl⟩
  | encRun => rw [blockStep_encRun hp] at h; exact (encStep_frame (settle_next_iff.1 h)).operands
  | decRun => rw [blockStep_decRun hp] at h; exact (decStep_frame (settle_next_iff.1 h)).operands

/-- Of the moves that are not held, only `RESET` writes the operands. -/
theorem hostStep_operands {s t : State} {m : HostMove} (hm : heldWhileBusy m = false) (hr : m ≠ .reset)
    (h : hostStep m s = .next t) : SameOperands t s := by
  cases m with
  | pass => exact blockStep_operands (blockTurn_eq s ▸ h)
  | rdsr k => cases h; exact ⟨rfl, rfl, rfl, rfl, rfl⟩
  | reset => exact absurd rfl hr
  | issue | hrdPixel | hrdByte | hwrPixel | hwrByte => cases hm

/-- Settles O35: a busy step is the block's, or a move that is not held, and of those only `RESET` writes the operands. -/
theorem operandsStayLatched : Obligations.OperandsStayLatched := by
  intro s t hb hs hr
  have hops : SameOperands t s := by
    obtain ⟨-, -, he⟩ | ⟨m, rest, hm, hheld, he⟩ := step_cases s
    · exact blockStep_operands (he ▸ hs)
    · have hm' : m ≠ .reset := by simpa [hm] using hr
      obtain ⟨hch, hsel, hw, hh, hn⟩ := hostStep_operands (hheld.resolve_left hb) hm' (he ▸ hs)
      exact ⟨hch, hsel, hw, hh, hn⟩
  exact ⟨hops.rCh, hops.rSel, hops.rW, hops.rH, hops.rN⟩

/-! ### The block in `IDLE` (R21, R231) -/

theorem step_idle_quiet {s : State} (hp : s.phase = .idle) (hh : s.host = []) : step s = .next s := by
  obtain ⟨-, -, he⟩ | ⟨m, rest, hm, -, -⟩ := step_cases s
  · rw [he, blockStep_idle hp]
  · simp [hh] at hm

/-- Settles O9: with no host move the step is the block's, which is none in `IDLE`; a `pass` is taken and gives the block the turn. -/
theorem idleBlockTakesNoStep : Obligations.IdleBlockTakesNoStep := by
  refine fun s hp => ⟨step_idle_quiet hp, fun rest hm => ?_⟩
  rw [step_pass hm, blockStep_idle (s := setHost rest s) hp]
  rfl

/-! ### The hidden registers (R32) -/

/-- `s` with the hidden registers of `u`: the latched operands and the working registers (R32). -/
def withHidden (u s : State) : State :=
  { s with
    rCh := u.rCh, rSel := u.rSel, rW := u.rW, rH := u.rH, rN := u.rN, x := u.x, y := u.y
    byteIdx := u.byteIdx, bitIdx := u.bitIdx, acc := u.acc, n := u.n, bitsRead := u.bitsRead, outLen := u.outLen }

/-- How the steps from `s` and from `withHidden u s` differ: not at all, or, in `IDLE`, in the hidden registers they found. -/
def UpToHidden (u t t' : State) : Prop := t' = t ∨ (t.phase = .idle ∧ t' = withHidden u t)

/-- A start writes every hidden register or, refused, none. -/
theorem start_withHidden {s : State} (u : State) (hp : s.phase = .idle) (ph : Phase) (fits : Bool) (ch : BitVec 2) (sel : Bit)
    (w h : BitVec 16) (n : BitVec 32) :
    UpToHidden u (start ph fits ch sel w h n s) (start ph fits ch sel w h n (withHidden u s)) := by
  unfold start
  split
  · exact .inr ⟨hp, rfl⟩
  · split
    · exact .inl rfl
    · exact .inr ⟨hp, rfl⟩

theorem exec_withHidden {s t : State} (u : State) (hp : s.phase = .idle) {i : Instr} (h : exec i s = .next t) :
    ∃ t', exec i (withHidden u s) = .next t' ∧ UpToHidden u t t' := by
  have hp' : (withHidden u s).phase = .idle := hp
  rw [exec_idle hp] at h
  cases h
  refine ⟨_, exec_idle hp' i, ?_⟩
  cases i with
  | enc ch sel w hh n => exact start_withHidden u hp ..
  | dec ch sel w hh n => exact start_withHidden u hp ..

theorem issue_withHidden {s t : State} (u : State) (hp : s.phase = .idle) {d : Descriptor} (h : issue d s = .next t) :
    ∃ t', issue d (withHidden u s) = .next t' ∧ UpToHidden u t t' := by
  unfold issue at h ⊢
  cases hd : decode d with
  | ok i => rw [hd] at h; exact exec_withHidden u hp h
  | error e => rw [hd] at h; cases h; exact ⟨_, rfl, .inr ⟨hp, rfl⟩⟩

/-- A host move in `IDLE` reads no hidden register: `ISSUE` and `RESET` write them, every other move leaves them as found. -/
theorem hostStep_withHidden {s t : State} (u : State) (hp : s.phase = .idle) {m : HostMove} (h : hostStep m s = .next t) :
    ∃ t', hostStep m (withHidden u s) = .next t' ∧ UpToHidden u t t' := by
  cases m with
  | pass =>
    rw [hostStep, blockTurn_eq, blockStep_idle hp] at h
    cases h
    exact ⟨_, (blockTurn_eq _).trans (blockStep_idle (s := withHidden u s) hp), .inr ⟨hp, rfl⟩⟩
  | issue d => exact issue_withHidden u hp h
  | rdsr k => cases h; exact ⟨_, rfl, .inr ⟨hp, rfl⟩⟩
  | hrdPixel b i =>
    obtain ⟨hi, rfl⟩ := hostReadPixel_ok_iff.1 (settle_next_iff.1 h)
    exact ⟨_, settle_next_iff.2 (hostReadPixel_ok b hi), .inr ⟨hp, rfl⟩⟩
  | hrdByte sp i =>
    obtain ⟨hi, rfl⟩ := hostReadByte_ok_iff.1 (settle_next_iff.1 h)
    cases sp <;> exact ⟨_, settle_next_iff.2 (hostReadByte_ok hi), .inr ⟨hp, rfl⟩⟩
  | hwrPixel b i v =>
    obtain ⟨hi, rfl⟩ := hostWritePixel_ok_iff.1 (settle_next_iff.1 h)
    exact ⟨_, settle_next_iff.2 (hostWritePixel_ok b v hi), .inr ⟨hp, rfl⟩⟩
  | hwrByte sp i v =>
    obtain ⟨hi, rfl⟩ := hostWriteByte_ok_iff.1 (settle_next_iff.1 h)
    cases sp <;> exact ⟨_, settle_next_iff.2 (hostWriteByte_ok v hi), .inr ⟨hp, rfl⟩⟩
  | reset => cases h; exact ⟨_, rfl, .inl rfl⟩

theorem step_withHidden {s t : State} (u : State) (hp : s.phase = .idle) (h : step s = .next t) :
    ∃ t', step (withHidden u s) = .next t' ∧ UpToHidden u t t' := by
  obtain ⟨-, hq, -⟩ | ⟨m, rest, hm, -, he⟩ := step_cases s
  · have hh : s.host = [] := hq.resolve_left (absurd hp)
    rw [step_idle_quiet hp hh] at h
    cases h
    exact ⟨_, step_idle_quiet (s := withHidden u s) hp hh, .inr ⟨hp, rfl⟩⟩
  · have he' : step (withHidden u s) = hostStep m (withHidden u (setHost rest s)) :=
      step_taken (s := withHidden u s) hm (.inl hp)
    rw [he']
    exact hostStep_withHidden (s := setHost rest s) u hp (he ▸ h)

/-- Settles O39: the two steps leave one state, or two that differ in the hidden registers alone with no command running. -/
theorem hiddenRegistersDoNotMatter : Obligations.HiddenRegistersDoNotMatter := by
  intro s t u hp hs
  obtain ⟨t', hs', rfl | ⟨hidle, rfl⟩⟩ := step_withHidden u hp hs
  · exact ⟨t', hs', rfl, rfl, rfl, rfl, rfl, rfl, rfl, rfl, rfl, fun _ => rfl⟩
  · exact ⟨withHidden u t, hs', rfl, rfl, rfl, rfl, rfl, rfl, rfl, rfl, rfl, fun hb => absurd hidle hb⟩

end Sys2Proof.Machine
end

section
/-!
PROOFS. The memories (20_memory.md): what a running command reads and writes. A block access stays below its capacity (R67), a read of
an element nothing has written stops (R75), the inputs of the running command are not written (R60, R69), and the byte view is little
endian (R62).
-/

namespace Sys2Proof.Machine

/-! ### The byte view of an image bank (R61, R62) -/

/-- A channel is eight consecutive bits of the pixel word (R61). -/
theorem chan_eq_extractLsb' (p : Pixel) (c : BitVec 2) : chan p c = p.extractLsb' (8 * c.toNat) 8 := by
  apply BitVec.eq_of_toNat_eq
  simp [chan]

theorem byteView_channel {m : Memory 32} {i : Nat} {p : Pixel} (h : Memory.read m i = some p) (c : BitVec 2) :
    Memory.byteView m (4 * i + c.toNat) = some (chan p c) := by
  have hpix : (4 * i + c.toNat) / 4 = i := by omega
  have hch : (4 * i + c.toNat) % 4 = c.toNat := by omega
  rw [Memory.byteView, hpix, hch, h, BitVec.ofNat_toNat, BitVec.setWidth_eq, Option.map_some]

/-- Settles O50: each of the four bytes is one channel, and a channel is a byte of the pixel word. -/
theorem byteViewIsLittleEndian : Obligations.ByteViewIsLittleEndian := by
  intro m i p h
  have hbyte (c : BitVec 2) : Memory.byteView m (4 * i + c.toNat) = some (p.extractLsb' (8 * c.toNat) 8) := by
    rw [byteView_channel h, chan_eq_extractLsb']
  exact ⟨hbyte 0, hbyte 1, hbyte 2, hbyte 3⟩

/-! ### The size check bounds every index the block presents (R67, R182) -/

/-- A cursor on a pixel names one of the `P` pixels of the grid (R132). -/
theorem RunningInv.idx_lt_npix {s : State} (h : RunningInv s) (he : exhausted s = false) : idx s < npix s.rW s.rH := by
  have hy := ((not_exhausted_iff s).1 he).2
  calc idx s < s.y.toNat * s.rW.toNat + s.rW.toNat := Nat.add_lt_add_left (h.column he) _
    _ = s.rW.toNat * (s.y.toNat + 1) := by rw [Nat.mul_succ, Nat.mul_comm]
    _ ≤ npix s.rW s.rH := Nat.mul_le_mul_left _ hy

theorem RunningInv.idx_lt_imgCap {s : State} (h : RunningInv s) (he : exhausted s = false) : idx s < s.caps.imgCap :=
  Nat.lt_of_lt_of_le (h.idx_lt_npix he) h.fits

theorem RunningInv.pixelsDone_le_npix {s : State} (h : RunningInv s) : pixelsDone s ≤ npix s.rW s.rH := by
  cases he : exhausted s with
  | true => exact (pixelsDone_of_exhausted he).le
  | false => exact pixelsDone_of_not_exhausted he ▸ (h.idx_lt_npix he).le

/-- The payload byte of an embed step is one of the `min(N, ceil(P / 8))` that the size check counts: eight bits of every earlier byte
are embedded, one in each pixel before the cursor. -/
theorem EncInv.byteIdx_lt_payCap {s : State} (h : EncInv s) (hr : RunningInv s) (he : exhausted s = false)
    (hp : payloadRemains s = true) : s.byteIdx.toNat < s.caps.payCap := by
  have hlt := (payloadRemains_iff s).1 hp
  have hidx := hr.idx_lt_npix he
  have hbits := h.embedded
  rw [pixelsDone_of_not_exhausted he, bitsEmbedded] at hbits
  have hneed : s.byteIdx.toNat < payloadNeed s.rW s.rH s.rN := by
    unfold payloadNeed
    omega
  exact Nat.lt_of_lt_of_le hneed h.fits

/-- With bits pending, the byte they belong to is one of the `ceil(min(N, P) / 8)` that the size check counts. -/
theorem DecInv.outLen_lt_outCap {s : State} (h : DecInv s) (hr : RunningInv s) (hn : s.n ≠ 0) :
    s.outLen.toNat < s.caps.outCap := by
  have hdone := hr.pixelsDone_le_npix
  have hread := h.bitsRead
  have hcount := h.count
  have hlen := h.outLen
  have hpending : s.bitsRead.toNat % 8 ≠ 0 := fun h0 => hn (BitVec.eq_of_toNat_eq (h.pending.trans h0))
  have hneed : s.outLen.toNat < outputNeed s.rW s.rH s.rN := by
    unfold outputNeed
    omega
  exact Nat.lt_of_lt_of_le hneed h.fits

/-! ### No access outside a memory (R67) -/

theorem encStep_stays_inside {s : State} (h : Inv s) (hp : s.phase = .encRun) (k : Nat) :
    encStep s ≠ .error (.blockIndexOutOfRange k) := by
  intro hs
  have hr := h.running (by simp [hp])
  cases he : exhausted s with
  | true => rw [encStep_complete he] at hs; cases hs
  | false =>
    rw [encStep_pixel he] at hs
    obtain ⟨hf, -⟩ | ⟨hf, -, -⟩ | ⟨-, hi⟩ | ⟨-, hrem, hj⟩ := encPixel_error_cases hs
    · cases hf
    · cases hf
    · exact Nat.not_lt.2 hi (hr.idx_lt_imgCap he)
    · exact Nat.not_lt.2 hj ((h.encoding hp).byteIdx_lt_payCap hr he hrem)

theorem decStep_stays_inside {s : State} (h : Inv s) (hp : s.phase = .decRun) (k : Nat) :
    decStep s ≠ .error (.blockIndexOutOfRange k) := by
  intro hs
  have hr := h.running (by simp [hp])
  have hout := (h.decoding hp).outLen_lt_outCap hr
  cases hc : countReached s with
  | true =>
    rw [decStep_complete hc] at hs
    obtain ⟨-, hn, ho⟩ := decComplete_error_cases hs
    exact Nat.not_lt.2 ho (hout hn)
  | false =>
    cases he : exhausted s with
    | true => rw [decStep_overrun hc he] at hs; cases hs
    | false =>
      rw [decStep_pixel hc he] at hs
      obtain ⟨hf, -⟩ | ⟨-, hi⟩ | ⟨-, hn, ho⟩ := decPixel_error_cases hs
      · cases hf
      · exact Nat.not_lt.2 hi (hr.idx_lt_imgCap he)
      · exact Nat.not_lt.2 ho (hout (by simp [hn]))

theorem blockStep_stays_inside {s : State} (h : Inv s) (k : Nat) : blockStep s ≠ .fault (.blockIndexOutOfRange k) := by
  intro hs
  cases hp : s.phase with
  | idle => rw [blockStep_idle hp] at hs; cases hs
  | encRun => rw [blockStep_encRun hp] at hs; exact encStep_stays_inside h hp k (settle_fault_iff.1 hs)
  | decRun => rw [blockStep_decRun hp] at hs; exact decStep_stays_inside h hp k (settle_fault_iff.1 hs)

theorem issue_ne_fault {s : State} (hp : s.phase = .idle) (d : Descriptor) (r : Fault) : issue d s ≠ .fault r := by
  unfold issue
  split
  · rw [exec_idle hp]; simp
  · simp

/-- A host access faults with its own name alone (R185). -/
theorem hostAccess_fault {c : Prop} [Decidable c] {t : State} {i : Nat} {r : Fault}
    (h : settle (if c then .ok t else .error (.hostIndexOutOfRange i)) = .fault r) : r = .hostIndexOutOfRange i := by
  rw [settle_fault_iff] at h
  split at h
  · cases h
  · exact (Except.error.inj h).symm

/-- Of the host's moves only `pass` lets the block access a memory; `ISSUE` never faults, a host access has a fault of its own. -/
theorem hostStep_stays_inside {s : State} {m : HostMove} (h : Inv s) (hm : s.phase = .idle ∨ heldWhileBusy m = false) (k : Nat) :
    hostStep m s ≠ .fault (.blockIndexOutOfRange k) := by
  intro hs
  cases m with
  | pass => exact blockStep_stays_inside h k (blockTurn_eq s ▸ hs)
  | issue d => exact issue_ne_fault (hm.resolve_right (by simp [heldWhileBusy])) d _ hs
  | hrdPixel | hrdByte | hwrPixel | hwrByte => cases hostAccess_fault hs
  | rdsr | reset => cases hs

/-- Settles O29: a step is the block's or one host move, and under the invariant neither presents the block an index outside a memory. -/
theorem blockStaysInsideMemories : Obligations.BlockStaysInsideMemories := by
  intro s k h
  obtain ⟨-, -, he⟩ | ⟨m, rest, -, hm, he⟩ := step_cases s
  · exact he ▸ blockStep_stays_inside h k
  · exact he ▸ hostStep_stays_inside (setHost_keeps_inv h rest) hm k

/-! ### A read of an unwritten element stops (R75, U1) -/

theorem readPixel_unwritten {s : State} {b : Bit} {i : Nat} (hi : i < s.caps.imgCap) (h : Memory.read (s.bank b) i = none) :
    readPixel s b i = .error (.unwrittenPixel b i) := by
  simp [readPixel, hi, h]

theorem readPayload_unwritten {s : State} {j : Nat} (hj : j < s.caps.payCap) (h : Memory.read s.pay j = none) :
    readPayload s j = .error (.unwrittenPayload j) := by
  simp [readPayload, hj, h]

/-- The pixel is the first thing an `ENC` pixel step reads, whatever the payload holds (R70). -/
theorem encPixel_unwrittenPixel {s : State} (hi : idx s < s.caps.imgCap) (h : Memory.read (s.bank s.rSel) (idx s) = none) :
    encPixel s = .error (.unwrittenPixel s.rSel (idx s)) := by
  rw [encPixel, readPixel_unwritten hi h]
  rfl

theorem decPixel_unwrittenPixel {s : State} (hi : idx s < s.caps.imgCap) (h : Memory.read (s.bank s.rSel) (idx s) = none) :
    decPixel s = .error (.unwrittenPixel s.rSel (idx s)) := by
  rw [decPixel, readPixel_unwritten hi h]
  rfl

/-- The payload byte is read after the pixel, where payload remains (R70, R135). -/
theorem encPixel_unwrittenPayload {s : State} {p : Pixel} (hi : idx s < s.caps.imgCap)
    (hpix : Memory.read (s.bank s.rSel) (idx s) = some p) (hr : payloadRemains s = true) (hj : s.byteIdx.toNat < s.caps.payCap)
    (h : Memory.read s.pay s.byteIdx.toNat = none) : encPixel s = .error (.unwrittenPayload s.byteIdx.toNat) := by
  simp [encPixel, encEmbed, readPixel_ok_iff.2 ⟨hi, hpix⟩, hr, readPayload_unwritten hj h, bind, Except.bind]

/-- Settles O31: the invariant puts the cursor's pixel and the payload byte inside their memories, so the read reaches them, and the
pixel is read before the payload. -/
theorem unwrittenReadsStop : Obligations.UnwrittenReadsStop := by
  intro s h hw hy
  have he : exhausted s = false := (not_exhausted_iff s).2 ⟨hw, hy⟩
  have hi (hb : s.phase ≠ .idle) : idx s < s.caps.imgCap := (h.running hb).idx_lt_imgCap he
  refine ⟨fun hpix => ⟨fun hp => ?_, fun hp hc => ?_⟩, fun hpix hp hlt hpay => ?_⟩
  · rw [exec_encRun hp, encStep_pixel he, encPixel_unwrittenPixel (hi (by simp [hp])) hpix]
    rfl
  · rw [exec_decRun hp, decStep_pixel ((not_countReached_iff s).2 hc) he, decPixel_unwrittenPixel (hi (by simp [hp])) hpix]
    rfl
  · obtain ⟨p, hpix⟩ := Option.ne_none_iff_exists'.1 hpix
    have hb : s.phase ≠ .idle := by simp [hp]
    have hr : payloadRemains s = true := (payloadRemains_iff s).2 hlt
    have hj := (h.encoding hp).byteIdx_lt_payCap (h.running hb) he hr
    rw [exec_encRun hp, encStep_pixel he, encPixel_unwrittenPayload (hi hb) hpix hr hj hpay]
    rfl

/-! ### The inputs of the running command (R60, R69, R33) -/

/-- No step from `s` to `t` writes what the command running in `s` reads, nor a memory its kind of command never writes (R60). -/
structure KeepsInputs (s t : State) : Prop where
  source : t.bank s.rSel = s.bank s.rSel
  pay : t.pay = s.pay
  out : s.phase = .encRun → t.out = s.out
  images : s.phase = .decRun → t.img0 = s.img0 ∧ t.img1 = s.img1

theorem State.bank_congr {s t : State} (h0 : t.img0 = s.img0) (h1 : t.img1 = s.img1) (b : Bit) : t.bank b = s.bank b := by
  simp only [State.bank, h0, h1]

theorem EncFrame.keepsInputs {s t : State} (f : EncFrame s t) (hp : s.phase = .encRun) : KeepsInputs s t :=
  ⟨f.source, f.pay, fun _ => f.out, by simp [hp]⟩

theorem DecFrame.keepsInputs {s t : State} (f : DecFrame s t) (hp : s.phase = .decRun) : KeepsInputs s t :=
  ⟨State.bank_congr f.img0 f.img1 _, f.pay, by simp [hp], fun _ => ⟨f.img0, f.img1⟩⟩

theorem blockStep_keepsInputs {s t : State} (hs : blockStep s = .next t) : KeepsInputs s t := by
  cases hp : s.phase with
  | idle => rw [blockStep_idle hp] at hs; cases hs; exact ⟨rfl, rfl, fun _ => rfl, fun _ => ⟨rfl, rfl⟩⟩
  | encRun => rw [blockStep_encRun hp] at hs; exact (encStep_frame (settle_next_iff.1 hs)).keepsInputs hp
  | decRun => rw [blockStep_decRun hp] at hs; exact (decStep_frame (settle_next_iff.1 hs)).keepsInputs hp

/-- The moves that write a memory are held while a command runs (R69); of the others only `pass` gives the block its step. -/
theorem hostStep_keepsInputs {s t : State} {m : HostMove} (hm : heldWhileBusy m = false) (hs : hostStep m s = .next t) :
    KeepsInputs s t := by
  cases m with
  | pass => exact blockStep_keepsInputs (blockTurn_eq s ▸ hs)
  | rdsr | reset => cases hs; exact ⟨rfl, rfl, fun _ => rfl, fun _ => ⟨rfl, rfl⟩⟩
  | issue | hrdPixel | hrdByte | hwrPixel | hwrByte => cases hm

/-- Settles O36: a busy step is the block's, which its frame bounds, or a host move that is not held, and those write no memory. -/
theorem runningCommandKeepsItsInputs : Obligations.RunningCommandKeepsItsInputs := by
  intro s t hb hs
  obtain ⟨-, -, he⟩ | ⟨m, rest, -, hheld, he⟩ := step_cases s
  · obtain ⟨hsource, hpay, hout, himages⟩ := blockStep_keepsInputs (he ▸ hs)
    exact ⟨hsource, hpay, hout, himages⟩
  · obtain ⟨hsource, hpay, hout, himages⟩ := hostStep_keepsInputs (hheld.resolve_left hb) (he ▸ hs)
    exact ⟨hsource, hpay, hout, himages⟩

end Sys2Proof.Machine
end

section
/-!
PROOFS. Decoder and encoder (30_encoding.md R90 to R97): each field read out of a packed descriptor, each answer of `decode`, and the two
round trips; and what `ISSUE` does with an illegal descriptor (R203) and with a command that does not fit (R95, R182, R204).
-/

namespace Sys2Proof

/-! ### The fields of a packed descriptor (R91) -/

section
variable (op : BitVec 8) (ch : BitVec 2) (sel : Bit) (w h : BitVec 16) (n : BitVec 32)

theorem fieldOp_packFields : fieldOp (packFields op ch sel w h n) = op :=
  BitVec.extractLsb'_append_eq_right

theorem fieldSel_packFields : fieldSel (packFields op ch sel w h n) = sel := by
  rw [fieldSel, packFields, BitVec.extractLsb'_append_eq_of_le (by decide), BitVec.extractLsb'_append_eq_of_le (by decide)]
  exact BitVec.extractLsb'_append_eq_right

theorem fieldRsv_packFields : fieldRsv (packFields op ch sel w h n) = 0 := by
  rw [fieldRsv, packFields, BitVec.extractLsb'_append_eq_of_le (by decide), BitVec.extractLsb'_append_eq_of_le (by decide),
    BitVec.extractLsb'_append_eq_of_le (by decide)]
  exact BitVec.extractLsb'_append_eq_right

/-- Above the word `w0` stand `W`, `H` and `N` (R91). -/
theorem extractLsb'_packFields {i : Nat} (hi : 32 ≤ i) (k : Nat) :
    (packFields op ch sel w h n).extractLsb' i k = (n ++ h ++ w).extractLsb' (i - 32) k := by
  rw [packFields, BitVec.extractLsb'_append_eq_of_le (by omega), BitVec.extractLsb'_append_eq_of_le (by omega),
    BitVec.extractLsb'_append_eq_of_le (by omega), BitVec.extractLsb'_append_eq_of_le (by omega), Nat.sub_sub, Nat.sub_sub,
    Nat.sub_sub]

theorem fieldW_packFields : fieldW (packFields op ch sel w h n) = w := by
  rw [fieldW, extractLsb'_packFields (hi := by decide)]
  exact BitVec.extractLsb'_append_eq_right

theorem fieldH_packFields : fieldH (packFields op ch sel w h n) = h := by
  rw [fieldH, extractLsb'_packFields (hi := by decide), BitVec.extractLsb'_append_eq_of_le (by decide)]
  exact BitVec.extractLsb'_append_eq_right

theorem fieldN_packFields : fieldN (packFields op ch sel w h n) = n := by
  rw [fieldN, extractLsb'_packFields (hi := by decide), BitVec.extractLsb'_append_eq_of_le (by decide)]
  exact BitVec.extractLsb'_append_eq_left

/-- The layout as a number: each field shifted to its lowest bit (R97). -/
theorem packFields_toNat :
    (packFields op ch sel w h n).toNat =
      n.toNat <<< 64 ||| h.toNat <<< 48 ||| w.toNat <<< 32 ||| sel.toNat <<< 10 ||| ch.toNat <<< 8 ||| op.toNat := by
  rw [packFields]
  simp only [BitVec.toNat_append, BitVec.ofNat_eq_ofNat, BitVec.toNat_ofNat]
  simp only [Nat.shiftLeft_or_distrib, ← Nat.shiftLeft_add, Nat.zero_mod, Nat.or_zero, Nat.reduceAdd]

end

/-- A descriptor with `RSV = 0` is its fields packed again: the fields of R91 meet end to end and cover all 96 bits. -/
theorem packFields_fields {d : Descriptor} (hr : fieldRsv d = 0) :
    packFields (fieldOp d) (fieldCh d) (fieldSel d) (fieldW d) (fieldH d) (fieldN d) = d := by
  rw [packFields, ← hr, fieldOp, fieldCh, fieldSel, fieldRsv, fieldW, fieldH, fieldN,
    BitVec.extractLsb'_append_extractLsb'_eq_extractLsb' (rfl : 64 = 48 + 16),
    BitVec.extractLsb'_append_extractLsb'_eq_extractLsb' (rfl : 48 = 32 + 16),
    BitVec.extractLsb'_append_extractLsb'_eq_extractLsb' (rfl : 32 = 11 + 21),
    BitVec.extractLsb'_append_extractLsb'_eq_extractLsb' (rfl : 11 = 10 + 1),
    BitVec.extractLsb'_append_extractLsb'_eq_extractLsb' (rfl : 10 = 8 + 2),
    BitVec.extractLsb'_append_extractLsb'_eq_extractLsb' (rfl : 8 = 0 + 8)]
  exact BitVec.extractLsb'_eq_self

/-! ### Every answer of `decode` (R96) -/

section
variable {d : Descriptor}

theorem decode_reservedBits (hr : fieldRsv d ≠ 0) : decode d = .error .reservedBits := if_pos hr

theorem decode_reservedChannel (hr : fieldRsv d = 0) (hc : fieldCh d = 3) : decode d = .error .reservedChannel := by
  rw [decode, if_neg (not_not_intro hr), if_pos hc]

theorem decode_reservedOpcode (hr : fieldRsv d = 0) (hc : fieldCh d ≠ 3) (he : fieldOp d ≠ opEnc) (hd : fieldOp d ≠ opDec) :
    decode d = .error .reservedOpcode := by
  rw [decode, if_neg (not_not_intro hr), if_neg hc, if_neg he, if_neg hd]

theorem decode_enc (hr : fieldRsv d = 0) (hc : fieldCh d ≠ 3) (ho : fieldOp d = opEnc) :
    decode d = .ok (.enc (fieldCh d) (fieldSel d) (fieldW d) (fieldH d) (fieldN d)) := by
  rw [decode, if_neg (not_not_intro hr), if_neg hc, if_pos ho]

theorem decode_dec (hr : fieldRsv d = 0) (hc : fieldCh d ≠ 3) (ho : fieldOp d = opDec) :
    decode d = .ok (.dec (fieldCh d) (fieldSel d) (fieldW d) (fieldH d) (fieldN d)) := by
  have he : fieldOp d ≠ opEnc := by rw [ho]; decide
  rw [decode, if_neg (not_not_intro hr), if_neg hc, if_neg he, if_pos ho]

/-- What is not legal (R94) is refused. -/
theorem decode_error_of_not_legal
    (h : ¬((fieldOp d = opEnc ∨ fieldOp d = opDec) ∧ fieldRsv d = 0 ∧ fieldCh d ≠ 3)) : ∃ e, decode d = .error e := by
  cases hd : decode d with
  | error e => exact ⟨e, rfl⟩
  | ok i => exact absurd ((legal_iff d).1 (legal_of_decode_ok hd)) h

end

/-! ### The two round trips -/

/-- A command is well formed exactly where its descriptor's channel is a colour (R94). -/
theorem wf_iff_fieldCh_encode (i : Instr) : i.wf = true ↔ fieldCh (encode i) ≠ 3 := by
  cases i with
  | enc ch sel w h n => exact (Laws.TableRow.enc ch sel w h n).2
  | dec ch sel w h n => exact (Laws.TableRow.dec ch sel w h n).2

theorem decode_encode {i : Instr} (hi : i.wf = true) : decode (encode i) = .ok i := by
  have hc := (wf_iff_fieldCh_encode i).1 hi
  cases i with
  | enc ch sel w h n =>
    rw [encode] at hc ⊢
    rw [decode_enc (fieldRsv_packFields ..) hc (fieldOp_packFields ..)]
    simp only [fieldCh_packFields, fieldSel_packFields, fieldW_packFields, fieldH_packFields, fieldN_packFields]
  | dec ch sel w h n =>
    rw [encode] at hc ⊢
    rw [decode_dec (fieldRsv_packFields ..) hc (fieldOp_packFields ..)]
    simp only [fieldCh_packFields, fieldSel_packFields, fieldW_packFields, fieldH_packFields, fieldN_packFields]

theorem encode_of_decode {d : Descriptor} {i : Instr} (hd : decode d = .ok i) : encode i = d := by
  obtain ⟨hr, -, ⟨ho, rfl⟩ | ⟨ho, rfl⟩⟩ := decode_ok_cases hd
  · rw [encode, ← ho, packFields_fields hr]
  · rw [encode, ← ho, packFields_fields hr]

theorem wf_of_decode {d : Descriptor} {i : Instr} (hd : decode d = .ok i) : i.wf = true := by
  obtain ⟨-, hc, -⟩ := decode_ok_cases hd
  rw [wf_iff_fieldCh_encode, encode_of_decode hd]
  exact hc

/-- Settles O3: each field read out of the packed descriptor is the operand packed there. -/
theorem decodeAfterEncode : Obligations.DecodeAfterEncode :=
  fun _ => decode_encode

/-- Settles O4: with `RSV = 0` and the opcode the command's own, the descriptor is its fields packed again. -/
theorem encodeAfterDecode : Obligations.EncodeAfterDecode :=
  fun _ _ hd => ⟨encode_of_decode hd, wf_of_decode hd⟩

/-- Settles O5: both commands pack the same fields, which differ in the opcode alone. -/
theorem encodeIsTheListingFormula : Obligations.EncodeIsTheListingFormula :=
  fun ch sel w h n => ⟨packFields_toNat opEnc ch sel w h n, packFields_toNat opDec ch sel w h n⟩

/-- Settles O2: the fields are the bits R91 gives, and what meets neither row of the procedure is not legal. -/
theorem decodeIsTheProcedure : Obligations.DecodeIsTheProcedure := by
  refine fun d => ⟨decode_enc, decode_dec, fun hbad => decode_error_of_not_legal fun ⟨ho, hr, hc⟩ => ?_⟩
  obtain hr' | hc' | ⟨he, hd⟩ := hbad
  · exact hr' hr
  · exact hc hc'
  · exact ho.elim he hd

/-- Settles O1: the legal words are the descriptors of their commands, and each refused word has one field at fault. -/
theorem opcodeTableWordsDecode : Obligations.OpcodeTableWordsDecode := by
  refine ⟨decode_enc_word, decode_dec_word, ?_, ?_, ?_, ?_, ?_, ?_, ?_⟩
  · exact decode_encode (i := .enc 1 1 5 4 2) rfl
  · exact decode_encode (i := .dec 2 0 65535 65535 4294967295) rfl
  · exact decode_reservedOpcode (by decide) (by decide) (by decide) (by decide)
  · exact decode_reservedOpcode (by decide) (by decide) (by decide) (by decide)
  · exact decode_reservedChannel (by decide) (by decide)
  · exact decode_reservedBits (by decide)
  · exact decode_reservedBits (by decide)

end Sys2Proof

namespace Sys2Proof.Machine

/-! ### What `ISSUE` refuses and starts (R181, R182) -/

theorem issue_of_decode_error {d : Descriptor} {e : DecodeError} (h : decode d = .error e) (s : State) :
    issue d s = .next (refuse .illegalCommand s) := by
  rw [issue, h]

/-- Settles O12: in `IDLE` the `ISSUE` is taken, and a descriptor that is not legal does not decode. -/
theorem illegalDescriptorRefused : Obligations.IllegalDescriptorRefused := by
  intro s d rest hp hm hbad
  obtain ⟨e, he⟩ := decode_error_of_not_legal hbad
  calc step s = issue d (setHost rest s) := step_taken hm (.inl hp)
    _ = .next (refuse .illegalCommand (setHost rest s)) := issue_of_decode_error he _

section
variable {ch : BitVec 2} (sel : Bit) {w h : BitVec 16} {n : BitVec 32} {s : State}

theorem start_of_not_fits (ph : Phase) (hc : ch ≠ 3) : start ph false ch sel w h n s = refuse .rangeError s := if_neg hc

theorem start_of_fits (ph : Phase) (hc : ch ≠ 3) : start ph true ch sel w h n s = accept ph ch sel w h n s := if_neg hc

theorem exec_enc_oversize (hp : s.phase = .idle) (hc : ch ≠ 3)
    (hs : ¬(npix w h ≤ s.caps.imgCap ∧ payloadNeed w h n ≤ s.caps.payCap)) :
    exec (.enc ch sel w h n) s = .next (refuse .rangeError s) := by
  rw [← encAdmissible_iff, Bool.not_eq_true] at hs
  simp only [exec_idle hp, hs, start_of_not_fits sel _ hc]

theorem exec_dec_oversize (hp : s.phase = .idle) (hc : ch ≠ 3)
    (hs : ¬(npix w h ≤ s.caps.imgCap ∧ outputNeed w h n ≤ s.caps.outCap)) :
    exec (.dec ch sel w h n) s = .next (refuse .rangeError s) := by
  rw [← decAdmissible_iff, Bool.not_eq_true] at hs
  simp only [exec_idle hp, hs, start_of_not_fits sel _ hc]

end

/-- The reference capacities hold the largest `ENC`: `W * H` and `N` are below `2^32` (R95). -/
theorem encAdmissible_reference (w h : BitVec 16) (n : BitVec 32) : encAdmissible w h n Caps.reference = true := by
  have hpay : payloadNeed w h n ≤ n.toNat := min_le_left ..
  exact (encAdmissible_iff ..).2 ⟨(npix_lt w h).le, hpay.trans n.isLt.le⟩

/-- The reference capacities hold the largest `DEC` (R95). -/
theorem decAdmissible_reference (w h : BitVec 16) (n : BitVec 32) : decAdmissible w h n Caps.reference = true := by
  have himg := npix_lt w h
  have hbits : min n.toNat (npix w h) ≤ npix w h := min_le_right ..
  refine (decAdmissible_iff ..).2 ⟨himg.le, ?_⟩
  show (min n.toNat (npix w h) + 7) / 8 ≤ 2 ^ 32
  omega

theorem exec_started_of_reference {s : State} {i : Instr} (hp : s.phase = .idle) (hi : i.wf = true)
    (hcaps : s.caps = Caps.reference) : ∃ t, exec i s = .next t ∧ t.phase ≠ .idle ∧ t.code = .ok := by
  rw [exec_idle hp, hcaps]
  cases i with
  | enc ch sel w h n =>
    have hc : ch ≠ 3 := bne_iff_ne.1 hi
    simp only [encAdmissible_reference, start_of_fits sel _ hc]
    exact ⟨_, rfl, by simp, rfl⟩
  | dec ch sel w h n =>
    have hc : ch ≠ 3 := bne_iff_ne.1 hi
    simp only [decAdmissible_reference, start_of_fits sel _ hc]
    exact ⟨_, rfl, by simp, rfl⟩

/-- Settles O13: the size check of R182 is the hypothesis, and the reference capacities pass it at every operand. -/
theorem oversizeCommandRefused : Obligations.OversizeCommandRefused := by
  refine ⟨fun s ch sel w h n hp hc => ⟨?_, ?_⟩, fun s i => exec_started_of_reference⟩
  · exact exec_enc_oversize sel hp hc
  · exact exec_dec_oversize sel hp hc

end Sys2Proof.Machine
end

section
/-!
PROOFS. The bit utilities (40_bit_utilities.md R120 to R125). `setLsb` is the concatenation `{b[7:1], v}`, and `withChan` is described
bit by bit; the numbers and the five laws are read off these two.
-/

namespace Sys2Proof.Machine

/-! ### One byte (R120 to R122) -/

theorem bitAt_toNat (b : Byte) (k : BitVec 3) : (bitAt b k).toNat = b.toNat / 2 ^ (7 - k.toNat) % 2 := by
  simp [bitAt, Nat.shiftRight_eq_div_pow]

theorem lsb_toNat (b : Byte) : (lsb b).toNat = b.toNat % 2 := BitVec.toNat_setWidth 1 b

/-- The second form of R122, `{b[7:1], v}`. -/
theorem setLsb_eq_append (b : Byte) (v : Bit) : setLsb b v = b.extractLsb' 1 7 ++ v := by
  apply BitVec.eq_of_getLsbD_eq
  intro i hi
  have hmask : (0xFE : Byte) = ~~~1#8 := rfl
  rw [setLsb, hmask, BitVec.getLsbD_or, BitVec.getLsbD_and, BitVec.getLsbD_not, BitVec.getLsbD_append]
  cases i with
  | zero => simp
  | succ i => simp [hi, Nat.lt_of_succ_lt_succ hi, Nat.add_comm 1 i]

theorem setLsb_toNat (b : Byte) (v : Bit) : (setLsb b v).toNat = 2 * (b.toNat / 2) + v.toNat := by
  rw [setLsb_eq_append, BitVec.toNat_append, ← Nat.shiftLeft_add_eq_or_of_lt v.isLt, BitVec.extractLsb'_toNat, Nat.shiftLeft_eq,
    Nat.shiftRight_eq_div_pow]
  omega

theorem lsb_setLsb (b : Byte) (v : Bit) : lsb (setLsb b v) = v := by
  rw [setLsb_eq_append]
  exact BitVec.setWidth_append_eq_right

theorem setLsb_upper (b : Byte) (v : Bit) : (setLsb b v).extractLsb' 1 7 = b.extractLsb' 1 7 := by
  rw [setLsb_eq_append]
  exact BitVec.extractLsb'_append_eq_left

theorem setLsb_setLsb (b : Byte) (v v' : Bit) : setLsb (setLsb b v) v' = setLsb b v' := by
  rw [setLsb_eq_append (setLsb b v), setLsb_upper, ← setLsb_eq_append]

/-- Most significant bit first, the eight bits are the binary numeral of the byte (R125). -/
theorem toNat_eq_sum_bitAt (b : Byte) :
    b.toNat = ((List.range 8).map fun k => (bitAt b (BitVec.ofNat 3 k)).toNat * 2 ^ (7 - k)).sum := by
  have hbit (k : Nat) : (bitAt b (BitVec.ofNat 3 k)).toNat = b.toNat / 2 ^ (7 - k % 8) % 2 := bitAt_toNat ..
  have hlt : b.toNat < 256 := b.isLt
  calc b.toNat
    _ = b.toNat / 128 % 2 * 128 + (b.toNat / 64 % 2 * 64 + (b.toNat / 32 % 2 * 32 + (b.toNat / 16 % 2 * 16 +
        (b.toNat / 8 % 2 * 8 + (b.toNat / 4 % 2 * 4 + (b.toNat / 2 % 2 * 2 + b.toNat % 2)))))) := by omega
    _ = _ := by simp [hbit, List.range_succ]

/-! ### One channel of a pixel (R123, R124) -/

theorem chan_toNat (p : Pixel) (c : BitVec 2) : (chan p c).toNat = p.toNat / 2 ^ (8 * c.toNat) % 256 := by
  rw [chan_eq_extractLsb', BitVec.extractLsb'_toNat, Nat.shiftRight_eq_div_pow]

theorem chan_getLsbD (p : Pixel) (c : BitVec 2) {j : Nat} (hj : j < 8) : (chan p c).getLsbD j = p.getLsbD (8 * c.toNat + j) := by
  simp [chan_eq_extractLsb', hj]

/-- A byte moved to channel `c` has its bits there and nowhere else. -/
theorem channelByte_getLsbD (c : BitVec 2) (u : Byte) {i : Nat} (hi : i < 32) :
    (u.setWidth 32 <<< (8 * c.toNat)).getLsbD i = if i / 8 = c.toNat then u.getLsbD (i % 8) else false := by
  rw [BitVec.getLsbD_shiftLeft, BitVec.getLsbD_setWidth]
  by_cases hlow : i < 8 * c.toNat
  · rw [if_neg (by omega)]
    simp [hlow]
  have hwidth : i - 8 * c.toNat < 32 := by omega
  by_cases hin : i - 8 * c.toNat < 8
  · rw [if_pos (by omega), show i % 8 = i - 8 * c.toNat by omega]
    simp [hi, hlow, hwidth]
  · rw [if_neg (by omega), BitVec.getLsbD_of_ge u _ (Nat.le_of_not_lt hin), Bool.and_false, Bool.and_false]

/-- A bit of the result is `u`'s where it lies in channel `c` and `p`'s where it does not. -/
theorem withChan_getLsbD (p : Pixel) (c : BitVec 2) (u : Byte) {i : Nat} (hi : i < 32) :
    (withChan p c u).getLsbD i = if i / 8 = c.toNat then u.getLsbD (i % 8) else p.getLsbD i := by
  have hmask : (0xFF : BitVec 32) = (BitVec.allOnes 8).setWidth 32 := rfl
  rw [withChan, BitVec.getLsbD_or, BitVec.getLsbD_and, BitVec.getLsbD_not, hmask, channelByte_getLsbD c _ hi,
    channelByte_getLsbD c _ hi, BitVec.getLsbD_allOnes, decide_eq_true (Nat.mod_lt i (by decide))]
  split
  next => simp
  next => simp [hi]

theorem chan_withChan_same (p : Pixel) (c : BitVec 2) (u : Byte) : chan (withChan p c u) c = u := by
  apply BitVec.eq_of_getLsbD_eq
  intro j hj
  have hc := c.isLt
  rw [chan_getLsbD _ _ hj, withChan_getLsbD _ _ _ (by omega), if_pos (by omega), Nat.mul_add_mod, Nat.mod_eq_of_lt hj]

theorem chan_withChan_other (p : Pixel) {c c' : BitVec 2} (u : Byte) (h : c' ≠ c) : chan (withChan p c u) c' = chan p c' := by
  apply BitVec.eq_of_getLsbD_eq
  intro j hj
  have hc := c'.isLt
  have hne : c'.toNat ≠ c.toNat := BitVec.toNat_ne.1 h
  rw [chan_getLsbD _ _ hj, withChan_getLsbD _ _ _ (by omega), if_neg (by omega), chan_getLsbD _ _ hj]

theorem withChan_chan_self (p : Pixel) (c : BitVec 2) : withChan p c (chan p c) = p := by
  apply BitVec.eq_of_getLsbD_eq
  intro i hi
  rw [withChan_getLsbD _ _ _ hi]
  split
  next hc => rw [chan_getLsbD _ _ (Nat.mod_lt _ (by decide)), ← hc, Nat.div_add_mod]
  next => rfl

/-- `u` moved to channel `c`: no bit is lost, since `8 * c + 8 ≤ 32`. -/
theorem channelByte_toNat (c : BitVec 2) (u : Byte) : (u.setWidth 32 <<< (8 * c.toNat)).toNat = u.toNat * 2 ^ (8 * c.toNat) := by
  have hc := c.isLt
  have hfits : u.toNat * 2 ^ (8 * c.toNat) < 2 ^ 32 :=
    calc u.toNat * 2 ^ (8 * c.toNat) < 2 ^ 8 * 2 ^ (8 * c.toNat) := Nat.mul_lt_mul_of_pos_right u.isLt (Nat.two_pow_pos _)
      _ = 2 ^ (8 + 8 * c.toNat) := (Nat.pow_add ..).symm
      _ ≤ 2 ^ 32 := Nat.pow_le_pow_right (by decide) (by omega)
  rw [BitVec.toNat_shiftLeft, BitVec.toNat_setWidth_of_le (by decide), Nat.shiftLeft_eq, Nat.mod_eq_of_lt hfits]

theorem withChan_zero_disjoint (p : Pixel) (c : BitVec 2) (u : Byte) :
    withChan p c 0 &&& (u.setWidth 32 <<< (8 * c.toNat)) = 0 := by
  apply BitVec.eq_of_getLsbD_eq
  intro i hi
  rw [BitVec.getLsbD_and, withChan_getLsbD _ _ _ hi, channelByte_getLsbD c u hi]
  split <;> simp

/-- Putting a byte into channel `c` adds it, at its place, to the pixel with that channel cleared. -/
theorem withChan_toNat (p : Pixel) (c : BitVec 2) (u : Byte) :
    (withChan p c u).toNat = (withChan p c 0).toNat + u.toNat * 2 ^ (8 * c.toNat) := by
  have hor : withChan p c u = withChan p c 0 ||| (u.setWidth 32 <<< (8 * c.toNat)) := by simp [withChan]
  have hdisjoint := withChan_zero_disjoint p c u
  rw [hor, ← BitVec.add_eq_or_of_and_eq_zero _ _ hdisjoint, BitVec.toNat_add_of_and_eq_zero hdisjoint, channelByte_toNat]

/-- Settles O40: in the last equation each side is `p` with channel `c` cleared, plus the old and the new byte at its place. -/
theorem bitUtilitiesInNumbers : Obligations.BitUtilitiesInNumbers := by
  intro b u k v p c
  refine ⟨bitAt_toNat b k, lsb_toNat b, setLsb_toNat b v, chan_toNat p c, ?_⟩
  have hnew := withChan_toNat p c u
  have hold := withChan_toNat p c (chan p c)
  rw [withChan_chan_self] at hold
  omega

/-- Settles O41, law by law. -/
theorem bitUtilityLaws : Obligations.BitUtilityLaws := fun b u v v' p c _ _ =>
  ⟨lsb_setLsb b v, setLsb_upper b v, setLsb_setLsb b v v', chan_withChan_same p c u, chan_withChan_other p u, toNat_eq_sum_bitAt b⟩

end Sys2Proof.Machine
end

section
/-!
PROOFS. The encoder (41_encoder.md R131 to R138): its start, the traversal cursor, the two arms of its pixel step, its completion, and a
whole `ENC` as an induction over its pixel steps.
-/

namespace Sys2Proof.Machine

/-! ### The start (R131, R181) -/

theorem exec_enc_starts {s : State} {ch : BitVec 2} (sel : Bit) {w h : BitVec 16} {n : BitVec 32} (hp : s.phase = .idle)
    (hc : ch ≠ 3) (himg : npix w h ≤ s.caps.imgCap) (hpay : payloadNeed w h n ≤ s.caps.payCap) :
    exec (.enc ch sel w h n) s = .next (accept .encRun ch sel w h n s) := by
  simp only [exec_idle hp, (encAdmissible_iff w h n s.caps).2 ⟨himg, hpay⟩, start_of_fits sel _ hc]

/-- Settles O10: the bounds are the size check of R182, and the accepting arm writes the registers named. -/
theorem encStartsWhenIssued : Obligations.EncStartsWhenIssued := fun _ _ sel _ _ _ hp hc himg hpay =>
  exec_enc_starts sel hp hc himg hpay

/-! ### The traversal cursor (R132 to R134) -/

/-- Where the cursor stands after a pixel step, as R134 says it. -/
theorem advance_cases {s : State} (hy : s.y.toNat < s.rH.toNat) :
    if s.x.toNat + 1 < s.rW.toNat then (advance s).x.toNat = s.x.toNat + 1 ∧ (advance s).y = s.y
    else (advance s).x = 0 ∧ (advance s).y.toNat = s.y.toNat + 1 := by
  split
  next h => exact advance_in_row h
  next h => exact advance_at_row_end (Nat.le_of_not_lt h) hy

theorem idx_advance_in_row {s : State} (h : s.x.toNat + 1 < s.rW.toNat) : idx (advance s) = idx s + 1 := by
  obtain ⟨hx, hy⟩ := advance_in_row h
  rw [idx, hx, hy, advance_rW, idx, Nat.add_assoc]

/-- At a row end the next index is that of column 0 of the next row, which is one more. -/
theorem idx_advance_at_row_end {s : State} (hx : s.x.toNat + 1 = s.rW.toNat) (hy : s.y.toNat < s.rH.toNat) :
    idx (advance s) = idx s + 1 := by
  obtain ⟨hx', hy'⟩ := advance_at_row_end hx.ge hy
  rw [idx, hx', hy', advance_rW, Nat.succ_mul, idx, ← hx]
  rfl

theorem exhausted_advance_in_row {s : State} (h : s.x.toNat + 1 < s.rW.toNat) : exhausted (advance s) = exhausted s :=
  exhausted_congr rfl rfl (advance_in_row h).2

/-- A pixel that is not the last of its row is not the last of the grid. -/
theorem idx_succ_lt_npix_in_row {s : State} (h : s.x.toNat + 1 < s.rW.toNat) (hy : s.y.toNat < s.rH.toNat) :
    idx s + 1 < npix s.rW s.rH :=
  calc idx s + 1 < s.y.toNat * s.rW.toNat + s.rW.toNat := Nat.add_lt_add_left h _
    _ = s.rW.toNat * (s.y.toNat + 1) := by rw [Nat.mul_succ, Nat.mul_comm]
    _ ≤ npix s.rW s.rH := Nat.mul_le_mul_left _ hy

/-- At a row end the cursor is exhausted exactly after the last row, whose end is the last pixel of the grid. -/
theorem exhausted_advance_at_row_end {s : State} (hx : s.x.toNat + 1 = s.rW.toNat) (hy : s.y.toNat < s.rH.toNat) :
    exhausted (advance s) = true ↔ idx s + 1 = npix s.rW s.rH := by
  have hy' := (advance_at_row_end hx.ge hy).2
  have hpos : 0 < s.rW.toNat := by omega
  have hw : s.rW ≠ 0 := fun h0 => by simp [h0] at hpos
  have hrow : idx s + 1 = s.rW.toNat * (s.y.toNat + 1) := by rw [idx, Nat.add_assoc, hx, Nat.mul_succ, Nat.mul_comm]
  rw [exhausted_iff, advance_rW, advance_rH, hy', hrow, npix, Nat.mul_right_inj hpos.ne']
  constructor
  · rintro (h0 | hle)
    · exact absurd h0 hw
    · omega
  · exact fun he => .inr he.ge

/-- Settles O42: inside a row the column moves on and the grid is not finished; at a row end the row does. -/
theorem cursorVisitsAscendingIndices : Obligations.CursorVisitsAscendingIndices := by
  intro s hx hy
  refine ⟨advance_cases hy, rfl, ?_⟩
  by_cases hrow : s.x.toNat + 1 < s.rW.toNat
  · obtain ⟨hx', hy'⟩ := advance_in_row hrow
    have hw : s.rW ≠ 0 := fun h0 => by simp [h0] at hx
    have he : exhausted (advance s) = false := (exhausted_advance_in_row hrow).trans ((not_exhausted_iff s).2 ⟨hw, hy⟩)
    have hne : idx s + 1 ≠ s.rW.toNat * s.rH.toNat := (idx_succ_lt_npix_in_row hrow hy).ne
    exact ⟨fun _ => ⟨idx_advance_in_row hrow, hx' ▸ hrow⟩, by simp [he, hne], hy' ▸ hy.le⟩
  · have hend : s.x.toNat + 1 = s.rW.toNat := by omega
    obtain ⟨hx', hy'⟩ := advance_at_row_end hend.ge hy
    have hcol : (advance s).x.toNat < s.rW.toNat := by rw [hx']; exact Nat.zero_lt_of_lt hx
    exact ⟨fun _ => ⟨idx_advance_at_row_end hend hy, hcol⟩, exhausted_advance_at_row_end hend hy, hy' ▸ hy⟩

/-! ### The pixel step (R135) -/

/-- The counters after one more payload bit, where the byte counter does not wrap. -/
theorem countBit_cases {s : State} (h : s.byteIdx.toNat < s.rN.toNat) :
    if s.bitIdx = 7 then (countBit s).bitIdx = 0 ∧ (countBit s).byteIdx.toNat = s.byteIdx.toNat + 1
    else (countBit s).bitIdx.toNat = s.bitIdx.toNat + 1 ∧ (countBit s).byteIdx = s.byteIdx := by
  split
  next h7 =>
    obtain ⟨hbit, hbyte⟩ := countBit_wrap h7
    exact ⟨hbit, by rw [hbyte]; bv_omega⟩
  next h7 => exact countBit_next h7

theorem read_afterEmbed (s : State) (p : Pixel) (pb : Byte) :
    Memory.read ((afterEmbed s p pb).bank (1 - s.rSel)) (idx s) = some (embed p s.rCh (bitAt pb s.bitIdx)) := by
  simp [afterEmbed]

theorem read_afterCopy (s : State) (p : Pixel) : Memory.read ((afterCopy s p).bank (1 - s.rSel)) (idx s) = some p := by
  simp [afterCopy]

section
variable {s : State} {p : Pixel} {pb : Byte}

/-- The embed arm is taken: the invariant puts the pixel and the payload byte inside their memories. -/
theorem exec_encRun_embed (hinv : Inv s) (hp : s.phase = .encRun) (he : exhausted s = false)
    (hpix : Memory.read (s.bank s.rSel) (idx s) = some p) (hlt : s.byteIdx.toNat < s.rN.toNat)
    (hpay : Memory.read s.pay s.byteIdx.toNat = some pb) (i : Instr) : exec i s = .next (afterEmbed s p pb) := by
  have hr := hinv.running (by simp [hp])
  have hrem := (payloadRemains_iff s).2 hlt
  have hj := (hinv.encoding hp).byteIdx_lt_payCap hr he hrem
  rw [exec_encRun hp, encStep_pixel he, encPixel_embed (hr.idx_lt_imgCap he) hpix hrem hj hpay]
  rfl

/-- The copy arm is taken: it reads no payload. -/
theorem exec_encRun_copy (hinv : Inv s) (hp : s.phase = .encRun) (he : exhausted s = false)
    (hpix : Memory.read (s.bank s.rSel) (idx s) = some p) (hle : s.rN.toNat ≤ s.byteIdx.toNat) (i : Instr) :
    exec i s = .next (afterCopy s p) := by
  have hr := hinv.running (by simp [hp])
  rw [exec_encRun hp, encStep_pixel he, encPixel_copy (hr.idx_lt_imgCap he) hpix ((not_payloadRemains_iff s).2 hle)]
  rfl

end

/-- Settles O14: `byte_idx` selects the arm, and the statement is read off the state that arm leaves. -/
theorem encPixelStep : Obligations.EncPixelStep := by
  intro s p hinv hp hw hy hpix
  have he : exhausted s = false := (not_exhausted_iff s).2 ⟨hw, hy⟩
  refine ⟨fun pb hlt hpay => ?_, fun hle => ?_⟩
  · have hf := encFrame_afterEmbed s p pb
    exact ⟨_, exec_encRun_embed hinv hp he hpix hlt hpay _, read_afterEmbed s p pb, hf.destination, hf.source,
      countBit_cases hlt, advance_cases hy, rfl⟩
  · have hf := encFrame_afterCopy s p
    exact ⟨_, exec_encRun_copy hinv hp he hpix hle _, read_afterCopy s p, hf.destination, hf.source, advance_cases hy, rfl⟩

/-! ### The completion step (R136) -/

/-- Payload remains exactly while the pixels taken are fewer than the payload's bits. -/
theorem EncInv.payloadRemains_iff {s : State} (h : EncInv s) : payloadRemains s = true ↔ pixelsDone s < 8 * s.rN.toNat := by
  have hbit := s.bitIdx.isLt
  have hbits := h.embedded
  rw [bitsEmbedded] at hbits
  rw [Machine.payloadRemains_iff]
  omega

/-- The bits embedded are no more than the pixels of the grid, so `len` holds their number (R24). -/
theorem encComplete_len_toNat {s : State} (h : EncInv s) (hr : RunningInv s) : (encComplete s).len.toNat = bitsEmbedded s := by
  have hle : bitsEmbedded s ≤ pixelsDone s := h.embedded ▸ min_le_right _ _
  have hlt : bitsEmbedded s < 2 ^ 32 := (hle.trans hr.pixelsDone_le_npix).trans_lt (npix_lt ..)
  exact (BitVec.toNat_ofNat ..).trans (Nat.mod_eq_of_lt hlt)

/-- Settles O15: an exhausted cursor has taken all `P` pixels, so the invariant's count of bits is `min(8 * r_n, P)`. -/
theorem encCompletionStep : Obligations.EncCompletionStep := by
  intro s hinv hp hex
  have he : exhausted s = true := (exhausted_iff s).2 hex
  have henc := hinv.encoding hp
  have hdone := pixelsDone_of_exhausted he
  have hrem := henc.payloadRemains_iff
  have hbits := henc.embedded
  rw [hdone] at hrem hbits
  refine ⟨(payloadRemains_iff s).symm.trans hrem, hbits, (encComplete s).len,
    encComplete_len_toNat henc (hinv.running (by simp [hp])), ?_⟩
  rw [exec_encRun hp, encStep_complete he]
  simp only [settle, encComplete, complete, payloadRemains_iff]

/-! ### A whole `ENC` (R137) -/

/-- A pixel step that goes on keeps what the running `ENC` keeps of the cursor and the counters, and takes one pixel. -/
theorem encPixel_keeps_run {s t : State} (hr : RunningInv s) (henc : EncInv s) (he : exhausted s = false)
    (h : encPixel s = .ok t) : RunningInv t ∧ EncInv t ∧ pixelsDone t = pixelsDone s + 1 := by
  have hrun := hr.advance he
  have hdone := pixelsDone_advance hr he
  obtain ⟨p, -, -, ⟨hrem, pb, -, -, rfl⟩ | ⟨hrem, rfl⟩⟩ := encPixel_ok_cases h
  · have e := sameRun_afterEmbed s p pb
    exact ⟨e.runningInv hrun, encInv_afterEmbed henc hr he hrem p pb, e.pixelsDone.trans hdone⟩
  · have e := sameRun_afterCopy s p
    exact ⟨e.runningInv hrun, encInv_afterCopy henc hr he hrem p, e.pixelsDone.trans hdone⟩

/-- While payload remains, the counters are the quotient and the remainder of the cursor's index: one bit went into each pixel before. -/
theorem EncInv.counters_of_payloadRemains {s : State} (h : EncInv s) (he : exhausted s = false) (hrem : payloadRemains s = true) :
    s.byteIdx.toNat = idx s / 8 ∧ s.bitIdx = BitVec.ofNat 3 (idx s % 8) := by
  have hlt := h.payloadRemains_iff.1 hrem
  have hbit := s.bitIdx.isLt
  have hbits := h.embedded
  rw [pixelsDone_of_not_exhausted he] at hlt hbits
  rw [bitsEmbedded, min_eq_right hlt.le] at hbits
  refine ⟨by omega, BitVec.eq_of_toNat_eq ?_⟩
  rw [BitVec.toNat_ofNat]
  omega

/-- With its inputs written, the pixel step goes on and writes the closed form's pixel (R137). -/
theorem encPixel_writes_encodedPixel {s : State} {S : Nat → Pixel} {Y : Nat → Byte} (hr : RunningInv s) (henc : EncInv s)
    (he : exhausted s = false) (hS : Memory.read (s.bank s.rSel) (idx s) = some (S (idx s)))
    (hY : idx s < 8 * s.rN.toNat → Memory.read s.pay (idx s / 8) = some (Y (idx s / 8))) :
    ∃ t, encPixel s = .ok t ∧
      Memory.read (t.bank (1 - s.rSel)) (idx s) = some (encodedPixel S Y s.rCh s.rN.toNat (idx s)) := by
  have hi := hr.idx_lt_imgCap he
  have hiff := henc.payloadRemains_iff
  rw [pixelsDone_of_not_exhausted he] at hiff
  cases hrem : payloadRemains s with
  | true =>
    have hlt := hiff.1 hrem
    obtain ⟨hbyte, hbit⟩ := henc.counters_of_payloadRemains he hrem
    have hpay := hbyte.symm ▸ hY hlt
    refine ⟨_, encPixel_embed hi hS hrem (henc.byteIdx_lt_payCap hr he hrem) hpay, ?_⟩
    rw [read_afterEmbed, encodedPixel, if_pos hlt, hbit, hbyte, embed]
  | false =>
    have hge : ¬ idx s < 8 * s.rN.toNat := fun hlt => Bool.false_ne_true (hrem.symm.trans (hiff.2 hlt))
    refine ⟨_, encPixel_copy hi hS hrem, ?_⟩
    rw [read_afterCopy, encodedPixel, if_neg hge]

theorem SameOperands.trans {r s t : State} (ht : SameOperands t s) (hs : SameOperands s r) : SameOperands t r :=
  ⟨ht.rCh.trans hs.rCh, ht.rSel.trans hs.rSel, ht.rW.trans hs.rW, ht.rH.trans hs.rH, ht.rN.trans hs.rN⟩

/-- `t` is the state after `k` pixel steps of the `ENC` that starts to run in `s`, with no host move: the first `k` pixels of the
destination are the closed form's, every other element and every input are those of `s`. -/
structure EncProgress (S : Nat → Pixel) (Y : Nat → Byte) (s : State) (k : Nat) (t : State) : Prop where
  phase : t.phase = .encRun
  host : t.host = []
  operands : SameOperands t s
  running : RunningInv t
  encoding : EncInv t
  done : pixelsDone t = k
  written : ∀ j < k, Memory.read (t.bank (1 - s.rSel)) j = some (encodedPixel S Y s.rCh s.rN.toNat j)
  beyond : ∀ j, k ≤ j → Memory.read (t.bank (1 - s.rSel)) j = Memory.read (s.bank (1 - s.rSel)) j
  source : t.bank s.rSel = s.bank s.rSel
  pay : t.pay = s.pay
  out : t.out = s.out

theorem encProgress_accept (S : Nat → Pixel) (Y : Nat → Byte) {s : State} (ch : BitVec 2) (sel : Bit) {w h : BitVec 16}
    {n : BitVec 32} (hh : s.host = []) (himg : npix w h ≤ s.caps.imgCap) (hpay : payloadNeed w h n ≤ s.caps.payCap) :
    EncProgress S Y (accept .encRun ch sel w h n s) 0 (accept .encRun ch sel w h n s) where
  phase := rfl
  host := hh
  operands := ⟨rfl, rfl, rfl, rfl, rfl⟩
  running := runningInv_accept _ _ _ _ himg
  encoding := encInv_accept _ _ _ hpay
  done := pixelsDone_origin rfl rfl
  written := fun _ hj => absurd hj (Nat.not_lt_zero _)
  beyond := fun _ _ => rfl
  source := rfl
  pay := rfl
  out := rfl

section
variable {S : Nat → Pixel} {Y : Nat → Byte} {s t : State} {k : Nat}

theorem EncProgress.step_eq (h : EncProgress S Y s k t) : step t = settle (encStep t) := by
  have hb : t.phase ≠ .idle := by simp [h.phase]
  have hw : HostWaits t := by simp [HostWaits, h.host]
  rw [step_hostWaits hb hw, blockStep_encRun h.phase]

theorem EncProgress.not_exhausted (h : EncProgress S Y s k t) (hk : k < npix s.rW s.rH) : exhausted t = false := by
  cases he : exhausted t with
  | false => rfl
  | true =>
    have hall := pixelsDone_of_exhausted he
    rw [h.done, h.operands.rW, h.operands.rH] at hall
    omega

theorem EncProgress.exhausted (h : EncProgress S Y s (npix s.rW s.rH) t) : exhausted t = true := by
  cases he : Machine.exhausted t with
  | true => rfl
  | false =>
    have hlt := h.running.idx_lt_npix he
    rw [← pixelsDone_of_not_exhausted he, h.done, h.operands.rW, h.operands.rH] at hlt
    omega

theorem EncProgress.idx_eq (h : EncProgress S Y s k t) (hk : k < npix s.rW s.rH) : idx t = k :=
  (pixelsDone_of_not_exhausted (h.not_exhausted hk)).symm.trans h.done

/-- The pixel under the cursor is the source image's: no step has written the source bank. -/
theorem EncProgress.read_source (h : EncProgress S Y s k t) (hk : k < npix s.rW s.rH)
    (hS : PixelsAre s s.rSel (npix s.rW s.rH) S) : Memory.read (t.bank t.rSel) (idx t) = some (S (idx t)) := by
  rw [h.idx_eq hk, h.operands.rSel, h.source]
  exact hS k hk

/-- The byte that holds payload bit `k` is one of the `min(N, ceil(P / 8))` that the host has written (R234). -/
theorem EncProgress.read_payload (h : EncProgress S Y s k t) (hk : k < npix s.rW s.rH)
    (hY : PayloadIs s (payloadNeed s.rW s.rH s.rN) Y) (hlt : idx t < 8 * t.rN.toNat) :
    Memory.read t.pay (idx t / 8) = some (Y (idx t / 8)) := by
  rw [h.idx_eq hk, h.operands.rN] at hlt
  rw [h.idx_eq hk, h.pay]
  refine hY _ ?_
  unfold payloadNeed
  omega

/-- One more pixel step: it writes the closed form's pixel at `k`, and its frame leaves the rest. -/
theorem EncProgress.step (h : EncProgress S Y s k t) (hk : k < npix s.rW s.rH) (hS : PixelsAre s s.rSel (npix s.rW s.rH) S)
    (hY : PayloadIs s (payloadNeed s.rW s.rH s.rN) Y) : ∃ u, step t = .next u ∧ EncProgress S Y s (k + 1) u := by
  have he := h.not_exhausted hk
  obtain ⟨u, hu, hread⟩ :=
    encPixel_writes_encodedPixel h.running h.encoding he (h.read_source hk hS) (h.read_payload hk hY)
  have hstep : encStep t = .ok u := (encStep_pixel he).trans hu
  obtain ⟨hrun, henc, hdone⟩ := encPixel_keeps_run h.running h.encoding he hu
  have hf := encStep_frame hstep
  have hdst := hf.destination
  have hsource := hf.source
  rw [h.operands.rSel] at hsource
  rw [h.idx_eq hk, h.operands.rSel] at hdst
  rw [h.idx_eq hk, h.operands.rSel, h.operands.rCh, h.operands.rN] at hread
  refine ⟨u, by rw [h.step_eq, hstep]; rfl, ?_⟩
  constructor
  case phase => exact (encStep_pixel_frame hstep he).1.trans h.phase
  case host => exact hf.host.trans h.host
  case operands => exact hf.operands.trans h.operands
  case running => exact hrun
  case encoding => exact henc
  case done => rw [hdone, h.done]
  case written =>
    intro j hj
    obtain hlt | rfl := Nat.lt_succ_iff_lt_or_eq.1 hj
    · rw [hdst j hlt.ne, h.written j hlt]
    · exact hread
  case beyond =>
    intro j hj
    rw [hdst j (Nat.ne_of_gt hj), h.beyond j (Nat.le_of_succ_le hj)]
  case source => exact hsource.trans h.source
  case pay => exact hf.pay.trans h.pay
  case out => exact hf.out.trans h.out

/-- The induction over the pixel steps: from the started state, any number of them up to `P` is taken. -/
theorem EncProgress.run (h : EncProgress S Y s 0 s) (hS : PixelsAre s s.rSel (npix s.rW s.rH) S)
    (hY : PayloadIs s (payloadNeed s.rW s.rH s.rN) Y) (hk : k ≤ npix s.rW s.rH) :
    ∃ t, runSteps k s = .next t ∧ EncProgress S Y s k t := by
  induction k with
  | zero => exact ⟨s, rfl, h⟩
  | succ k ih =>
    obtain ⟨t, hrun, ht⟩ := ih (Nat.le_of_succ_le hk)
    obtain ⟨u, hstep, hu⟩ := ht.step hk hS hY
    exact ⟨u, (runSteps_add hrun).trans (runSteps_succ_next hstep), hu⟩

/-- After all `P` pixel steps the next one is the completion step (R136). -/
theorem EncProgress.completes (h : EncProgress S Y s (npix s.rW s.rH) t) : Machine.step t = .next (encComplete t) := by
  rw [h.step_eq, encStep_complete h.exhausted]
  rfl

theorem EncProgress.len_of_complete (h : EncProgress S Y s (npix s.rW s.rH) t) :
    (encComplete t).len.toNat = min (8 * s.rN.toNat) (npix s.rW s.rH) := by
  rw [encComplete_len_toNat h.encoding h.running, h.encoding.embedded, h.done, h.operands.rN]

theorem EncProgress.code_of_complete (h : EncProgress S Y s (npix s.rW s.rH) t) :
    (encComplete t).code = if npix s.rW s.rH < 8 * s.rN.toNat then .insufficientCapacity else .ok := by
  simp only [encComplete, complete_code, h.encoding.payloadRemains_iff, h.done, h.operands.rN]

end

/-- Settles O20: the start is accepted, `P` pixel steps write the destination, and the completion step changes no memory. -/
theorem encResultClosedForm : Obligations.EncResultClosedForm := by
  intro s ch sel w h n S Y hp hh hc himg hpay hS hY
  have hstart := encProgress_accept S Y ch sel (n := n) hh himg hpay
  obtain ⟨t, hrun, ht⟩ := hstart.run hS hY le_rfl
  exact ⟨_, encComplete t, exec_enc_starts sel hp hc himg hpay,
    (runSteps_add hrun).trans (runSteps_succ_next ht.completes), rfl, ht.written, ht.beyond, ht.source, ht.pay, ht.out,
    ht.len_of_complete, ht.code_of_complete⟩

/-! ### Channel isolation (R138) -/

theorem setLsb_ushiftRight_one (b : Byte) (v : Bit) : setLsb b v >>> 1 = b >>> 1 := by
  have hv := v.isLt
  apply BitVec.eq_of_toNat_eq
  rw [BitVec.toNat_ushiftRight, BitVec.toNat_ushiftRight, setLsb_toNat, Nat.shiftRight_eq_div_pow, Nat.shiftRight_eq_div_pow]
  omega

theorem chan_embed_other (p : Pixel) {c c' : BitVec 2} (v : Bit) (h : c' ≠ c) : chan (embed p c v) c' = chan p c' :=
  chan_withChan_other p _ h

theorem chan_embed_upper (p : Pixel) (c : BitVec 2) (v : Bit) : chan (embed p c v) c >>> 1 = chan p c >>> 1 := by
  rw [embed, chan_withChan_same, setLsb_ushiftRight_one]

/-- A pixel of the closed form is the source pixel or, in the first `8N`, the source pixel with one bit embedded. -/
theorem encodedPixel_cases (S : Nat → Pixel) (Y : Nat → Byte) (ch : BitVec 2) (N k : Nat) :
    encodedPixel S Y ch N k = S k ∨ (k < 8 * N ∧ ∃ v, encodedPixel S Y ch N k = embed (S k) ch v) := by
  unfold encodedPixel
  split
  next hk => exact .inr ⟨hk, _, rfl⟩
  next => exact .inl rfl

/-- Settles O23: by O20 every pixel of the output is the closed form's, and an embedded bit is bit 0 of the designated channel. -/
theorem encLeavesOtherBitsAlone : Obligations.EncLeavesOtherBitsAlone := by
  intro s ch sel w h n S Y hp hh hc himg hpay hS hY
  obtain ⟨s1, t, hstart, hrun, -, hread, -⟩ := encResultClosedForm s ch sel w h n S Y hp hh hc himg hpay hS hY
  refine ⟨s1, t, hstart, hrun, fun k hk => ⟨encodedPixel S Y ch n.toNat k, hread k hk, ?_⟩⟩
  obtain he | ⟨hlt, v, he⟩ := encodedPixel_cases S Y ch n.toNat k
  · rw [he]
    exact ⟨fun _ _ => rfl, rfl, fun _ => rfl⟩
  · rw [he]
    exact ⟨fun _ => chan_embed_other (S k) v, chan_embed_upper (S k) ch v, fun hge => absurd hlt (Nat.not_lt.2 hge)⟩

end Sys2Proof.Machine
end

section
/-!
PROOFS. The decoder (42_decoder.md R151 to R158): its start, its pixel step, its two completions, a whole `DEC` as an induction over its
pixel steps, the round trip with `ENC`, and that of the images only the hidden bits matter.
-/

namespace Sys2Proof.Machine

/-! ### The start (R151, R181) -/

theorem exec_dec_starts {s : State} {ch : BitVec 2} (sel : Bit) {w h : BitVec 16} {n : BitVec 32} (hp : s.phase = .idle)
    (hc : ch ≠ 3) (himg : npix w h ≤ s.caps.imgCap) (hout : outputNeed w h n ≤ s.caps.outCap) :
    exec (.dec ch sel w h n) s = .next (accept .decRun ch sel w h n s) := by
  simp only [exec_idle hp, (decAdmissible_iff w h n s.caps).2 ⟨himg, hout⟩, start_of_fits sel _ hc]

/-- Settles O11: the bounds are the size check of R182, and the accepting arm writes the registers named. -/
theorem decStartsWhenIssued : Obligations.DecStartsWhenIssued := fun _ _ sel _ _ _ hp hc himg hout =>
  exec_dec_starts sel hp hc himg hout

/-! ### The accumulator (R153, R154) -/

section
variable (acc : Byte) (b : Bit)

theorem shiftIn_toNat : (shiftIn acc b).toNat = (acc.toNat <<< 1 ||| b.toNat) % 2 ^ 8 := by
  rw [shiftIn, BitVec.toNat_or, BitVec.toNat_shiftLeft, BitVec.toNat_setWidth, Nat.or_mod_two_pow]

/-- The new bit does not overlap the shifted accumulator: the two are added. -/
theorem shiftIn_eq_ofNat : shiftIn acc b = BitVec.ofNat 8 (2 * acc.toNat + b.toNat) := by
  apply BitVec.eq_of_toNat_eq
  rw [shiftIn_toNat, ← Nat.shiftLeft_add_eq_or_of_lt b.isLt, Nat.shiftLeft_eq, Nat.mul_comm, BitVec.toNat_ofNat, Nat.pow_one]

/-- With the bits pushed up to the top of the byte, as padding does, the bit after `k` others has weight `2^(7 - k)`. -/
theorem shiftIn_shiftLeft {k : Nat} (hk : k ≤ 7) :
    shiftIn acc b <<< (7 - k) = acc <<< (8 - k) + BitVec.ofNat 8 (b.toNat * 2 ^ (7 - k)) := by
  have hshift : (2 * acc.toNat + b.toNat) * 2 ^ (7 - k) = acc.toNat * 2 ^ (8 - k) + b.toNat * 2 ^ (7 - k) := by
    rw [show 8 - k = 7 - k + 1 by omega]
    ring
  apply BitVec.eq_of_toNat_eq
  simp only [shiftIn_eq_ofNat, BitVec.toNat_shiftLeft, BitVec.toNat_add, BitVec.toNat_ofNat, Nat.shiftLeft_eq, Nat.mod_mul_mod,
    Nat.add_mod_mod, Nat.mod_add_mod, hshift]

/-- One more pending bit (R153). -/
theorem padded_shiftIn {n : BitVec 3} (hn : n ≠ 7) :
    padded (shiftIn acc b) (n + 1) = padded acc n + BitVec.ofNat 8 (b.toNat * 2 ^ (7 - n.toNat)) := by
  have hsucc : 8 - (n + 1).toNat = 7 - n.toNat := by bv_omega
  rw [padded, hsucc, shiftIn_shiftLeft acc b (by omega), padded]

/-- The eighth bit (R153). -/
theorem shiftIn_eighth {n : BitVec 3} (hn : n = 7) :
    shiftIn acc b = padded acc n + BitVec.ofNat 8 (b.toNat * 2 ^ (7 - n.toNat)) := by
  rw [padded, ← shiftIn_shiftLeft acc b (by omega), hn]
  exact (BitVec.shiftLeft_zero _).symm

end

/-- The pending bits are fewer than eight, so appending one loses none (R153). -/
theorem DecInv.shiftIn_toNat {s : State} (h : DecInv s) (b : Bit) : (shiftIn s.acc b).toNat = 2 * s.acc.toNat + b.toNat := by
  have hacc := h.acc
  have hpow : 2 ^ s.n.toNat ≤ 2 ^ 7 := Nat.pow_le_pow_right (by decide) (by omega)
  rw [shiftIn_eq_ofNat, BitVec.toNat_ofNat]
  omega

/-- The padded byte holds all pending bits (R154). -/
theorem DecInv.padded_toNat {s : State} (h : DecInv s) : (padded s.acc s.n).toNat = s.acc.toNat * 2 ^ (8 - s.n.toNat) := by
  have hlt : s.acc.toNat * 2 ^ (8 - s.n.toNat) < 2 ^ 8 :=
    calc s.acc.toNat * 2 ^ (8 - s.n.toNat) < 2 ^ s.n.toNat * 2 ^ (8 - s.n.toNat) :=
          Nat.mul_lt_mul_of_pos_right h.acc (Nat.two_pow_pos _)
      _ = 2 ^ 8 := by rw [← Nat.pow_add, Nat.add_sub_cancel' (by omega)]
  rw [padded, BitVec.toNat_shiftLeft, Nat.shiftLeft_eq, Nat.mod_eq_of_lt hlt]

/-! ### The closed form of an output byte (R157) -/

section
variable (f : Nat → Bit)

/-- `byteOf(j, m)` depends on `m` only through which of the eight bits it counts. -/
theorem byteOf_congr {m m' j : Nat} (h : ∀ i < 8, 8 * j + i < m ↔ 8 * j + i < m') : byteOf f m j = byteOf f m' j := by
  unfold byteOf
  rw [List.map_congr_left fun i hi => by rw [if_congr (h i (List.mem_range.1 hi)) rfl rfl]]

/-- A byte none of whose bits is counted. -/
theorem byteOf_eq_zero {m j : Nat} (h : m ≤ 8 * j) : byteOf f m j = 0 := by
  have hnone : byteOf f m j = byteOf f 0 j := byteOf_congr f fun i _ => by omega
  rw [hnone]
  simp [byteOf]

/-- Bit `m` counts in byte `m / 8`, with weight `2^(7 - m % 8)`. -/
theorem byteOf_succ (m : Nat) : byteOf f (m + 1) (m / 8) = byteOf f m (m / 8) + BitVec.ofNat 8 ((f m).toNat * 2 ^ (7 - m % 8)) := by
  have hterm (i : Nat) : (if 8 * (m / 8) + i < m + 1 then (f (8 * (m / 8) + i)).toNat else 0) * 2 ^ (7 - i) =
      (if 8 * (m / 8) + i < m then (f (8 * (m / 8) + i)).toNat else 0) * 2 ^ (7 - i) +
        (if i = m % 8 then (f m).toNat * 2 ^ (7 - m % 8) else 0) := by
    rcases Nat.lt_trichotomy i (m % 8) with hi | rfl | hi
    · rw [if_pos (by omega), if_pos (by omega), if_neg hi.ne, Nat.add_zero]
    · simp [Nat.div_add_mod]
    · rw [if_neg (by omega), if_neg (by omega), if_neg hi.ne', Nat.add_zero]
  have hnew : ((List.range 8).map fun i => if i = m % 8 then (f m).toNat * 2 ^ (7 - m % 8) else 0).sum =
      (f m).toNat * 2 ^ (7 - m % 8) :=
    (Finset.sum_ite_eq' (Finset.range 8) (m % 8) fun _ => (f m).toNat * 2 ^ (7 - m % 8)).trans
      (if_pos (Finset.mem_range.2 (Nat.mod_lt m (by decide))))
  unfold byteOf
  rw [← BitVec.ofNat_add, List.map_congr_left fun i _ => hterm i, List.sum_map_add, hnew]

/-- A byte all of whose bits count does not change with later bits. -/
theorem byteOf_succ_of_lt {m j : Nat} (h : j < m / 8) : byteOf f (m + 1) j = byteOf f m j :=
  byteOf_congr f fun i _ => by omega

end

/-! ### The pixel step (R153) -/

section
variable {s : State} {p : Pixel}

/-- The invariant puts the pixel and the output byte inside their memories, so the pixel step goes on. -/
theorem decStep_emit (hr : RunningInv s) (hd : DecInv s) (hc : s.bitsRead ≠ s.rN) (he : exhausted s = false)
    (hpix : Memory.read (s.bank s.rSel) (idx s) = some p) (hn : s.n = 7) : decStep s = .ok (afterEmit s p) :=
  (decStep_pixel ((not_countReached_iff s).2 hc) he).trans
    (decPixel_emit (hr.idx_lt_imgCap he) hpix hn (hd.outLen_lt_outCap hr (by simp [hn])))

theorem decStep_gather (hr : RunningInv s) (hc : s.bitsRead ≠ s.rN) (he : exhausted s = false)
    (hpix : Memory.read (s.bank s.rSel) (idx s) = some p) (hn : s.n ≠ 7) : decStep s = .ok (afterGather s p) :=
  (decStep_pixel ((not_countReached_iff s).2 hc) he).trans (decPixel_gather (hr.idx_lt_imgCap he) hpix hn)

end

theorem exec_decRun_ok {s t : State} (hp : s.phase = .decRun) (h : decStep s = .ok t) (i : Instr) : exec i s = .next t :=
  (exec_decRun hp i).trans (settle_next_iff.2 h)

/-- `out_len` counts the whole bytes of a 32-bit number of bits, so counting one more byte does not wrap (R36). -/
theorem DecInv.outLen_succ {s : State} (h : DecInv s) : (s.outLen + 1).toNat = s.outLen.toNat + 1 := by
  have hlen := h.outLen
  have hread := s.bitsRead.isLt
  bv_omega

theorem read_afterEmit (s : State) (p : Pixel) :
    Memory.read (afterEmit s p).out s.outLen.toNat = some (shiftIn s.acc (hiddenBit p s.rCh)) := by
  simp [afterEmit]

theorem n_afterGather {s : State} (p : Pixel) (hn : s.n ≠ 7) : (afterGather s p).n.toNat = s.n.toNat + 1 := by
  rw [afterGather, advance_n, decGather_n]
  bv_omega

/-- Settles O16: `n` says whether the bit is the eighth of its byte, and the statement is read off the state that case leaves. -/
theorem decPixelStep : Obligations.DecPixelStep := by
  intro s p hinv hp hc hw hy hpix
  have he : exhausted s = false := (not_exhausted_iff s).2 ⟨hw, hy⟩
  have hr := hinv.running (by simp [hp])
  have hd := hinv.decoding hp
  have hread := (hd.bitsRead_succ hc).1
  have happend := shiftIn_toNat s.acc (hiddenBit p s.rCh)
  have hlossless := hd.shiftIn_toNat (hiddenBit p s.rCh)
  by_cases hn : s.n = 7
  · have hout := (decFrame_afterEmit s p).output
    exact ⟨_, _, exec_decRun_ok hp (decStep_emit hr hd hc he hpix hn) _, happend, hlossless, hread,
      (if_pos hn).mpr ⟨read_afterEmit s p, hd.outLen_succ, rfl, rfl, hout⟩, advance_cases hy, rfl⟩
  · exact ⟨_, _, exec_decRun_ok hp (decStep_gather hr hc he hpix hn) _, happend, hlossless, hread,
      (if_neg hn).mpr ⟨rfl, n_afterGather p hn, rfl, rfl⟩, advance_cases hy, rfl⟩

/-! ### The normal completion step (R154) -/

/-- The state after the normal completion step (R154). -/
def afterNormal (s : State) : State := if s.n = 0 then complete .ok s.outLen s else afterPad s

/-- `n` pending of `k` bits: with none the bytes are whole. -/
theorem ceil_of_whole {n : BitVec 3} {k : Nat} (hk : n.toNat = k % 8) (hn : n = 0) : (k + 7) / 8 = k / 8 := by
  bv_omega

/-- `n` pending of `k` bits: with some there is a partial byte. -/
theorem ceil_of_partial {n : BitVec 3} {k : Nat} (hk : n.toNat = k % 8) (hn : n ≠ 0) : (k + 7) / 8 = k / 8 + 1 := by
  bv_omega

section
variable {s : State}

theorem afterNormal_whole (hn : s.n = 0) : afterNormal s = complete .ok s.outLen s := if_pos hn

theorem afterNormal_pad (hn : s.n ≠ 0) : afterNormal s = afterPad s := if_neg hn

theorem afterNormal_phase (s : State) : (afterNormal s).phase = .idle := by unfold afterNormal; split <;> rfl

theorem afterNormal_code (s : State) : (afterNormal s).code = .ok := by unfold afterNormal; split <;> rfl

/-- The invariant puts the padded byte inside `OUT`, so the completion step goes on. -/
theorem decStep_normal (hr : RunningInv s) (hd : DecInv s) (hc : s.bitsRead = s.rN) : decStep s = .ok (afterNormal s) := by
  rw [decStep_complete ((countReached_iff s).2 hc)]
  by_cases hn : s.n = 0
  · rw [decComplete_whole hn, afterNormal_whole hn]
  · rw [decComplete_pad hn (hd.outLen_lt_outCap hr hn), afterNormal_pad hn]

theorem decFrame_afterNormal (s : State) : DecFrame s (afterNormal s) := by
  by_cases hn : s.n = 0
  · rw [afterNormal_whole hn]
    exact decFrame_complete s _ _
  · rw [afterNormal_pad hn]
    exact decFrame_afterPad s

theorem read_afterPad (s : State) : Memory.read (afterPad s).out s.outLen.toNat = some (padded s.acc s.n) := by
  simp [afterPad]

/-- `len` counts the whole bytes and the padded one: `ceil(r_n / 8)`. -/
theorem afterNormal_len_toNat (h : DecInv s) (hc : s.bitsRead = s.rN) : (afterNormal s).len.toNat = (s.rN.toNat + 7) / 8 := by
  have hlen := h.outLen
  have hpend := h.pending
  rw [hc] at hlen hpend
  by_cases hn : s.n = 0
  · rw [afterNormal_whole hn, complete_len, hlen, ceil_of_whole hpend hn]
  · rw [afterNormal_pad hn, afterPad, complete_len, h.outLen_succ, hlen, ceil_of_partial hpend hn]

end

/-- Settles O17: `n` says whether a partial byte is pending, and the statement is read off the state that case leaves. -/
theorem decNormalCompletionStep : Obligations.DecNormalCompletionStep := by
  intro s hinv hp hc
  have hd := hinv.decoding hp
  have hexec := exec_decRun_ok hp (decStep_normal (hinv.running (by simp [hp])) hd hc) (.dec s.rCh s.rSel s.rW s.rH s.rN)
  have hlen := afterNormal_len_toNat hd hc
  by_cases hn : s.n = 0
  · rw [afterNormal_whole hn] at hexec hlen
    exact ⟨_, hexec, rfl, rfl, hlen, (if_pos hn).mpr ⟨rfl, rfl, rfl⟩, rfl⟩
  · rw [afterNormal_pad hn] at hexec hlen
    have hout := (decFrame_afterPad s).output
    exact ⟨_, hexec, rfl, rfl, hlen,
      (if_neg hn).mpr ⟨hd.outLen_succ, hd.outLen_succ, ⟨_, read_afterPad s, hd.padded_toNat⟩, hout⟩, rfl⟩

/-! ### The overrun completion step (R155) -/

/-- Settles O18: one bit is read in each pixel, so an exhausted cursor has read `P` bits, and never more than `r_n`. -/
theorem decOverrunCompletionStep : Obligations.DecOverrunCompletionStep := by
  intro s hinv hp hex
  have he : exhausted s = true := (exhausted_iff s).2 hex
  have hd := hinv.decoding hp
  have hread : s.bitsRead.toNat = s.rW.toNat * s.rH.toNat := hd.bitsRead.trans (pixelsDone_of_exhausted he)
  have hcount := hd.count
  refine ⟨hread, ?_, fun hc => ⟨hread ▸ hd.outLen, ?_⟩⟩
  · rw [← hread, BitVec.toNat_ne]
    omega
  · exact exec_decRun_ok hp (decStep_overrun ((not_countReached_iff s).2 hc) he) _

/-! ### A zero bit count (R156) -/

theorem step_alone {s : State} (hh : s.host = []) : step s = blockStep s := by
  obtain ⟨-, -, he⟩ | ⟨m, rest, hm, -, -⟩ := step_cases s
  · exact he
  · simp [hh] at hm

/-- With no host move a running `DEC` takes its own step. -/
theorem step_decRun_alone {s t : State} (hp : s.phase = .decRun) (hh : s.host = []) (h : decStep s = .ok t) : step s = .next t :=
  (step_alone hh).trans ((blockStep_decRun hp).trans (settle_next_iff.2 h))

/-- Settles O19: the start reads 0 of 0 bits, so the next step is the normal completion, with nothing pending. -/
theorem zeroBitCountReadsNothing : Obligations.ZeroBitCountReadsNothing := by
  intro s ch sel w h hp hh hc himg
  have hout : outputNeed w h 0 ≤ s.caps.outCap := by simp [outputNeed]
  have hdone : decStep (accept .decRun ch sel w h 0 s) = .ok (complete .ok 0 (accept .decRun ch sel w h 0 s)) :=
    (decStep_complete ((countReached_iff _).2 rfl)).trans (decComplete_whole rfl)
  have hstep := step_decRun_alone (s := accept .decRun ch sel w h 0 s) rfl hh hdone
  exact ⟨_, _, exec_dec_starts sel hp hc himg hout, rfl, hstep, rfl, rfl, rfl, rfl, rfl, rfl, rfl⟩

/-! ### A whole `DEC` (R157) -/

/-- The hidden bits of an image (R157). -/
def hiddenBits (S : Nat → Pixel) (ch : BitVec 2) (k : Nat) : Bit := hiddenBit (S k) ch

/-- What `t` holds of the first `k` of the bits `f`, `OUT` having been `m` at the start: the whole bytes stand in `OUT`, the bits left
over in the accumulator. -/
structure BitsHeld (f : Nat → Bit) (m : Memory 8) (k : Nat) (t : State) : Prop where
  pending : padded t.acc t.n = byteOf f k (k / 8)
  written : ∀ j < k / 8, Memory.read t.out j = some (byteOf f k j)
  beyond : ∀ j, k / 8 ≤ j → Memory.read t.out j = Memory.read m j

section
variable {f : Nat → Bit} {m : Memory 8} {k : Nat} {s : State} {p : Pixel}

/-- The new bit, appended to the pending ones, makes the closed form's next partial byte. -/
theorem BitsHeld.next_pending (h : BitsHeld f m k s) (hp : hiddenBit p s.rCh = f k) (hn : s.n.toNat = k % 8) :
    padded s.acc s.n + BitVec.ofNat 8 ((hiddenBit p s.rCh).toNat * 2 ^ (7 - s.n.toNat)) = byteOf f (k + 1) (k / 8) := by
  rw [h.pending, hp, hn, byteOf_succ]

theorem BitsHeld.afterGather (h : BitsHeld f m k s) (hp : hiddenBit p s.rCh = f k) (hn : s.n.toNat = k % 8) (h7 : s.n ≠ 7) :
    BitsHeld f m (k + 1) (afterGather s p) := by
  have hbyte : (k + 1) / 8 = k / 8 := by bv_omega
  constructor
  case pending => rw [hbyte, ← h.next_pending hp hn]; exact padded_shiftIn _ _ h7
  case written =>
    intro j hj
    rw [hbyte] at hj
    rw [byteOf_succ_of_lt f hj]
    exact h.written j hj
  case beyond => rw [hbyte]; exact h.beyond

theorem BitsHeld.afterEmit (h : BitsHeld f m k s) (hp : hiddenBit p s.rCh = f k) (hn : s.n.toNat = k % 8) (h7 : s.n = 7)
    (hlen : s.outLen.toNat = k / 8) : BitsHeld f m (k + 1) (afterEmit s p) := by
  have hbyte : (k + 1) / 8 = k / 8 + 1 := by bv_omega
  have hout := (decFrame_afterEmit s p).output
  have hread := read_afterEmit s p
  rw [hlen] at hout hread
  constructor
  case pending => rw [hbyte, byteOf_eq_zero f (by omega)]; rfl
  case written =>
    intro j hj
    obtain hlt | rfl := Nat.lt_succ_iff_lt_or_eq.1 (hbyte ▸ hj)
    · rw [hout j hlt.ne, byteOf_succ_of_lt f hlt, h.written j hlt]
    · rw [hread, shiftIn_eighth _ _ h7, h.next_pending hp hn]
  case beyond =>
    intro j hj
    rw [hout j (by omega), h.beyond j (by omega)]

/-- The normal completion appends the pending bits, padded, as one more byte (R154). -/
theorem BitsHeld.read_afterNormal (h : BitsHeld f m k s) (hn : s.n.toNat = k % 8) (hlen : s.outLen.toNat = k / 8) :
    (∀ j < (k + 7) / 8, Memory.read (afterNormal s).out j = some (byteOf f k j)) ∧
      ∀ j, (k + 7) / 8 ≤ j → Memory.read (afterNormal s).out j = Memory.read m j := by
  by_cases h0 : s.n = 0
  · rw [afterNormal_whole h0, ceil_of_whole hn h0]
    exact ⟨h.written, h.beyond⟩
  · have hout := (decFrame_afterPad s).output
    have hread := read_afterPad s
    rw [hlen] at hout hread
    rw [afterNormal_pad h0, ceil_of_partial hn h0]
    refine ⟨fun j hj => ?_, fun j hj => ?_⟩
    · obtain hlt | rfl := Nat.lt_succ_iff_lt_or_eq.1 hj
      · rw [hout j hlt.ne, h.written j hlt]
      · rw [hread, h.pending]
    · rw [hout j (Nat.ne_of_gt hj), h.beyond j (Nat.le_of_succ_le hj)]

end

/-- `t` is the state after `k` pixel steps of the `DEC` that starts to run in `s`, with no host move and `S` the source image: it holds
the first `k` hidden bits, and every input is that of `s`. -/
structure DecProgress (S : Nat → Pixel) (s : State) (k : Nat) (t : State) : Prop where
  phase : t.phase = .decRun
  host : t.host = []
  operands : SameOperands t s
  running : RunningInv t
  decoding : DecInv t
  done : t.bitsRead.toNat = k
  held : BitsHeld (hiddenBits S s.rCh) s.out k t
  img0 : t.img0 = s.img0
  img1 : t.img1 = s.img1
  pay : t.pay = s.pay

theorem decProgress_accept (S : Nat → Pixel) {s : State} (ch : BitVec 2) (sel : Bit) {w h : BitVec 16} {n : BitVec 32}
    (hh : s.host = []) (himg : npix w h ≤ s.caps.imgCap) (hout : outputNeed w h n ≤ s.caps.outCap) :
    DecProgress S (accept .decRun ch sel w h n s) 0 (accept .decRun ch sel w h n s) where
  phase := rfl
  host := hh
  operands := ⟨rfl, rfl, rfl, rfl, rfl⟩
  running := runningInv_accept _ _ _ _ himg
  decoding := decInv_accept _ _ _ hout
  done := rfl
  held := ⟨(byteOf_eq_zero _ (Nat.zero_le _)).symm, fun _ hj => absurd hj (Nat.not_lt_zero _), fun _ _ => rfl⟩
  img0 := rfl
  img1 := rfl
  pay := rfl

/-- `t` is the result of a `DEC` that started to run in `s` and read `k` bits of the image `S`, ending with code `c` (R157). -/
structure DecResult (S : Nat → Pixel) (s : State) (k : Nat) (c : Code) (t : State) : Prop where
  phase : t.phase = .idle
  code : t.code = c
  written : ∀ j < t.len.toNat, Memory.read t.out j = some (byteOf (hiddenBits S s.rCh) k j)
  beyond : ∀ j, t.len.toNat ≤ j → Memory.read t.out j = Memory.read s.out j
  img0 : t.img0 = s.img0
  img1 : t.img1 = s.img1
  pay : t.pay = s.pay

section
variable {S : Nat → Pixel} {s t : State} {k : Nat}

theorem DecProgress.step_ok {u : State} (h : DecProgress S s k t) (hu : decStep t = .ok u) : step t = .next u :=
  step_decRun_alone h.phase h.host hu

theorem DecProgress.bitsRead_eq (h : DecProgress S s k t) : t.bitsRead = t.rN ↔ k = s.rN.toNat := by
  rw [← BitVec.toNat_inj, h.done, h.operands.rN]

theorem DecProgress.exhausted_iff (h : DecProgress S s k t) : exhausted t = true ↔ npix s.rW s.rH ≤ k := by
  have hread := h.decoding.bitsRead
  rw [h.done] at hread
  rw [← h.operands.rW, ← h.operands.rH]
  cases he : exhausted t with
  | true => simp [hread, pixelsDone_of_exhausted he]
  | false =>
    have hlt := h.running.idx_lt_npix he
    simp [hread, pixelsDone_of_not_exhausted he, hlt]

/-- The pixel under the cursor is number `k` of the source image: no step has written an image. -/
theorem DecProgress.read_source (h : DecProgress S s k t) (he : exhausted t = false)
    (hS : Memory.read (s.bank s.rSel) k = some (S k)) : Memory.read (t.bank t.rSel) (idx t) = some (S k) := by
  have hidx : idx t = k := by rw [← pixelsDone_of_not_exhausted he, ← h.decoding.bitsRead, h.done]
  rw [hidx, h.operands.rSel, State.bank_congr h.img0 h.img1, hS]

/-- One more pixel step: it reads hidden bit `k`, which fills a byte or stays pending. -/
theorem DecProgress.step (h : DecProgress S s k t) (hk : k < min s.rN.toNat (npix s.rW s.rH))
    (hS : Memory.read (s.bank s.rSel) k = some (S k)) : ∃ u, step t = .next u ∧ DecProgress S s (k + 1) u := by
  obtain ⟨hkn, hkp⟩ := Nat.lt_min.1 hk
  have hc : t.bitsRead ≠ t.rN := fun hc => hkn.ne (h.bitsRead_eq.1 hc)
  have he : exhausted t = false := Bool.eq_false_iff.2 fun he => absurd (h.exhausted_iff.1 he) (Nat.not_le.2 hkp)
  have hpix := h.read_source he hS
  have hbit : hiddenBit (S k) t.rCh = hiddenBits S s.rCh k := by rw [h.operands.rCh]; rfl
  have hn : t.n.toNat = k % 8 := h.done ▸ h.decoding.pending
  have hrun := h.running.advance he
  have hread : (t.bitsRead + 1).toNat = k + 1 := by rw [(h.decoding.bitsRead_succ hc).1, h.done]
  by_cases h7 : t.n = 7
  · have hlen : t.outLen.toNat = k / 8 := h.done ▸ h.decoding.outLen
    refine ⟨afterEmit t (S k), h.step_ok (decStep_emit h.running h.decoding hc he hpix h7), ?_⟩
    exact ⟨h.phase, h.host, (decFrame_afterEmit t (S k)).operands.trans h.operands, (sameRun_afterEmit ..).runningInv hrun,
      decInv_afterEmit h.decoding h.running he hc h7 _, hread, h.held.afterEmit hbit hn h7 hlen, h.img0, h.img1, h.pay⟩
  · refine ⟨afterGather t (S k), h.step_ok (decStep_gather h.running hc he hpix h7), ?_⟩
    exact ⟨h.phase, h.host, (decFrame_afterGather t (S k)).operands.trans h.operands, (sameRun_afterGather ..).runningInv hrun,
      decInv_afterGather h.decoding h.running he hc h7 _, hread, h.held.afterGather hbit hn h7, h.img0, h.img1, h.pay⟩

/-- The induction over the pixel steps: from the started state, any number of them up to `min(N, P)` is taken. -/
theorem DecProgress.run (h : DecProgress S s 0 s) (hS : PixelsAre s s.rSel (min s.rN.toNat (npix s.rW s.rH)) S)
    (hk : k ≤ min s.rN.toNat (npix s.rW s.rH)) : ∃ t, runSteps k s = .next t ∧ DecProgress S s k t := by
  induction k with
  | zero => exact ⟨s, rfl, h⟩
  | succ k ih =>
    obtain ⟨t, hrun, ht⟩ := ih (Nat.le_of_succ_le hk)
    obtain ⟨u, hstep, hu⟩ := ht.step hk (hS k hk)
    exact ⟨u, (runSteps_add hrun).trans (runSteps_succ_next hstep), hu⟩

/-- At the bit count the next step is the normal completion (R154). -/
theorem DecProgress.completes (h : DecProgress S s k t) (hk : k = s.rN.toNat) :
    ∃ u, Machine.step t = .next u ∧ u.len.toNat = (k + 7) / 8 ∧ DecResult S s k .ok u := by
  have hc := h.bitsRead_eq.2 hk
  have hlen := afterNormal_len_toNat h.decoding hc
  rw [h.operands.rN, ← hk] at hlen
  obtain ⟨hwritten, hbeyond⟩ := h.held.read_afterNormal (h.done ▸ h.decoding.pending) (h.done ▸ h.decoding.outLen)
  have hf := decFrame_afterNormal t
  exact ⟨afterNormal t, h.step_ok (decStep_normal h.running h.decoding hc), hlen, afterNormal_phase t, afterNormal_code t,
    hlen ▸ hwritten, hlen ▸ hbeyond, hf.img0.trans h.img0, hf.img1.trans h.img1, hf.pay.trans h.pay⟩

/-- After all `P` pixel steps with bits still wanted, the next step is the overrun completion (R155). -/
theorem DecProgress.overruns (h : DecProgress S s k t) (hk : k = npix s.rW s.rH) (hlt : k < s.rN.toNat) :
    ∃ u, Machine.step t = .next u ∧ u.len.toNat = k / 8 ∧ DecResult S s k .insufficientPixels u := by
  have hc : t.bitsRead ≠ t.rN := fun hc => hlt.ne (h.bitsRead_eq.1 hc)
  have hlen : (decOverrun t).len.toNat = k / 8 := h.done ▸ h.decoding.outLen
  have hstep := decStep_overrun ((not_countReached_iff t).2 hc) (h.exhausted_iff.2 hk.ge)
  exact ⟨decOverrun t, h.step_ok hstep, hlen, rfl, rfl, hlen ▸ h.held.written, hlen ▸ h.held.beyond, h.img0, h.img1, h.pay⟩

end

/-- Settles O21: the start is accepted, `min(N, P)` pixel steps read the hidden bits, and the completion step that follows is the normal
one exactly where `N ≤ P`. -/
theorem decResultClosedForm : Obligations.DecResultClosedForm := by
  intro s ch sel w h n S hp hh hc himg hout hS
  have hstart := exec_dec_starts sel hp hc himg hout
  obtain ⟨t, hrun, ht⟩ := (decProgress_accept S ch sel hh himg hout).run hS le_rfl
  by_cases hle : n.toNat ≤ w.toNat * h.toNat
  · have hk : min n.toNat (w.toNat * h.toNat) = n.toNat := min_eq_left hle
    obtain ⟨u, hu, hlen, hres⟩ := ht.completes hk
    refine ⟨_, u, hstart, (runSteps_add hrun).trans (runSteps_succ_next hu), hres.phase, ?_, hres.beyond, hres.img0, hres.img1,
      hres.pay⟩
    exact (if_pos hle).mpr ⟨hres.code, hk ▸ hlen, hk ▸ hres.written⟩
  · have hk : min n.toNat (w.toNat * h.toNat) = w.toNat * h.toNat := min_eq_right (Nat.le_of_not_le hle)
    obtain ⟨u, hu, hlen, hres⟩ := ht.overruns hk (hk.trans_lt (Nat.lt_of_not_le hle))
    refine ⟨_, u, hstart, (runSteps_add hrun).trans (runSteps_succ_next hu), hres.phase, ?_, hres.beyond, hres.img0, hres.img1,
      hres.pay⟩
    exact (if_neg hle).mpr ⟨hres.code, hk ▸ hlen, hk ▸ hres.written⟩

/-! ### The round trip (R158) -/

/-- A byte whose eight bits are those of `b`, most significant first, is `b`. -/
theorem byteOf_eq_of_bitAt {f : Nat → Bit} {m j : Nat} {b : Byte}
    (h : ∀ i < 8, 8 * j + i < m ∧ f (8 * j + i) = bitAt b (BitVec.ofNat 3 i)) : byteOf f m j = b := by
  have hterm : ∀ i ∈ List.range 8, (if 8 * j + i < m then (f (8 * j + i)).toNat else 0) * 2 ^ (7 - i) =
      (bitAt b (BitVec.ofNat 3 i)).toNat * 2 ^ (7 - i) := by
    intro i hi
    obtain ⟨hlt, hbit⟩ := h i (List.mem_range.1 hi)
    rw [if_pos hlt, hbit]
  rw [byteOf, List.map_congr_left hterm, ← toNat_eq_sum_bitAt, BitVec.ofNat_toNat, BitVec.setWidth_eq]

/-- The hidden bits of an encoded image are the payload's bits, in order. -/
theorem hiddenBits_encodedPixel (S : Nat → Pixel) (Y : Nat → Byte) (ch : BitVec 2) {N k : Nat} (hk : k < 8 * N) :
    hiddenBits (encodedPixel S Y ch N) ch k = bitAt (Y (k / 8)) (BitVec.ofNat 3 (k % 8)) := by
  rw [hiddenBits, hiddenBit, encodedPixel, if_pos hk, chan_withChan_same, lsb_setLsb]

theorem byteOf_encodedPixel (S : Nat → Pixel) (Y : Nat → Byte) (ch : BitVec 2) {N j : Nat} (hj : j < N) :
    byteOf (hiddenBits (encodedPixel S Y ch N) ch) (8 * N) j = Y j := by
  refine byteOf_eq_of_bitAt fun i hi => ⟨by omega, ?_⟩
  rw [hiddenBits_encodedPixel S Y ch (by omega), show (8 * j + i) / 8 = j by omega, show (8 * j + i) % 8 = i by omega]

theorem blockStep_caps {s t : State} (h : blockStep s = .next t) : t.caps = s.caps := by
  cases hp : s.phase with
  | idle => rw [blockStep_idle hp] at h; cases h; rfl
  | encRun => rw [blockStep_encRun hp] at h; exact (encStep_frame (settle_next_iff.1 h)).caps
  | decRun => rw [blockStep_decRun hp] at h; exact (decStep_frame (settle_next_iff.1 h)).caps

/-- A run that goes on took a first step. -/
theorem exists_step_of_runSteps_succ {k : Nat} {s t : State} (h : runSteps (k + 1) s = .next t) :
    ∃ u, step s = .next u ∧ runSteps k u = .next t := by
  rw [runSteps_succ] at h
  cases hs : step s with
  | next u => exact ⟨u, rfl, by simpa only [hs] using h⟩
  | fault r => simp [hs] at h
  | refused r => simp [hs] at h

/-- A run with no host move is the block's alone, which writes no capacity (R5) and leaves the host's moves as they are. -/
theorem runSteps_alone {k : Nat} {s t : State} (hh : s.host = []) (h : runSteps k s = .next t) :
    t.host = [] ∧ t.caps = s.caps := by
  induction k generalizing s with
  | zero => cases h; exact ⟨hh, rfl⟩
  | succ k ih =>
    obtain ⟨u, hu, hrun⟩ := exists_step_of_runSteps_succ h
    rw [step_alone hh] at hu
    obtain ⟨hhost, hcaps⟩ := ih ((blockStep_host hu).trans hh) hrun
    exact ⟨hhost, hcaps.trans (blockStep_caps hu)⟩

/-- Settles O22: by O20 the bank that `ENC` wrote hides the payload, and by O21 `DEC` reads it off. -/
theorem encThenDecRoundTrip : Obligations.EncThenDecRoundTrip := by
  intro s ch sel w h w' h' L n' S Y hp hh hc himg himg' hpay hout hP hP' hn hS hY
  have hneed : min L.toNat ((w.toNat * h.toNat + 7) / 8) ≤ L.toNat := min_le_left _ _
  obtain ⟨s1, t, hstart, hrun, hidle, hwritten, -, -, -, -, hlen, hcode⟩ :=
    encResultClosedForm s ch sel w h L S Y hp hh hc himg (hneed.trans hpay) hS fun j hj => hY j (hj.trans_le hneed)
  cases (exec_enc_starts sel hp hc himg (hneed.trans hpay)).symm.trans hstart
  obtain ⟨hhost, hcaps⟩ := runSteps_alone (s := accept .encRun ch sel w h L s) hh hrun
  have hbits : min n'.toNat (w'.toNat * h'.toNat) = 8 * L.toNat := by omega
  have hbytes : (n'.toNat + 7) / 8 = L.toNat := by omega
  obtain ⟨s2, u, hstart', hrun', hidle', hres, -⟩ :=
    decResultClosedForm t ch (1 - sel) w' h' n' (encodedPixel S Y ch L.toNat) hidle hhost hc (hcaps ▸ himg')
      (by rw [hcaps, hbits]; exact le_trans (by omega) hout) fun k hk => hwritten k (by omega)
  obtain ⟨hcode', hlen', hread⟩ := (if_pos (hn.trans_le hP')).mp hres
  rw [hlen', hbytes] at hread
  refine ⟨_, t, s2, u, hstart, hrun, ?_, by omega, hstart', hbits ▸ hrun', hidle', hcode',
    BitVec.eq_of_toNat_eq (hlen'.trans hbytes), fun j hj => ?_⟩
  · rw [hcode, if_neg (by omega)]
  · rw [hread j hj, hn]
    exact congrArg some (byteOf_encodedPixel S Y ch hj)

/-! ### Only the hidden bits matter (R153) -/

/-- `s` with other image banks. -/
def withImages (m0 m1 : Memory 32) (s : State) : State := { s with img0 := m0, img1 := m1 }

section
variable {s : State} {p p' : Pixel} (m0 m1 : Memory 32)

theorem afterEmit_withImages (h : hiddenBit p' s.rCh = hiddenBit p s.rCh) :
    afterEmit (withImages m0 m1 s) p' = withImages m0 m1 (afterEmit s p) := by
  have hb : hiddenBit p' (withImages m0 m1 s).rCh = hiddenBit p s.rCh := h
  rw [afterEmit, hb]
  rfl

theorem afterGather_withImages (h : hiddenBit p' s.rCh = hiddenBit p s.rCh) :
    afterGather (withImages m0 m1 s) p' = withImages m0 m1 (afterGather s p) := by
  have hb : hiddenBit p' (withImages m0 m1 s).rCh = hiddenBit p s.rCh := h
  rw [afterGather, hb]
  rfl

/-- A completion reads no pixel. -/
theorem decComplete_withImages {t : State} (h : decComplete s = .ok t) :
    decComplete (withImages m0 m1 s) = .ok (withImages m0 m1 t) := by
  obtain ⟨hn, rfl⟩ | ⟨hn, ho, rfl⟩ := decComplete_ok_cases h
  · exact decComplete_whole (s := withImages m0 m1 s) hn
  · exact decComplete_pad (s := withImages m0 m1 s) hn ho

/-- A pixel step reads one pixel, and of that its hidden bit alone. -/
theorem decPixel_withImages {t : State}
    (hbits : ∀ k, (Memory.read ((withImages m0 m1 s).bank s.rSel) k).map (hiddenBit · s.rCh) =
      (Memory.read (s.bank s.rSel) k).map (hiddenBit · s.rCh))
    (h : decPixel s = .ok t) : decPixel (withImages m0 m1 s) = .ok (withImages m0 m1 t) := by
  obtain ⟨p, hi, hp, hcases⟩ := decPixel_ok_cases h
  have hmap := hbits (idx s)
  rw [hp] at hmap
  obtain ⟨p', hp', hbit⟩ := Option.map_eq_some_iff.1 hmap
  obtain ⟨hn, ho, rfl⟩ | ⟨hn, rfl⟩ := hcases
  · exact (decPixel_emit (s := withImages m0 m1 s) hi hp' hn ho).trans (congrArg _ (afterEmit_withImages m0 m1 hbit))
  · exact (decPixel_gather (s := withImages m0 m1 s) hi hp' hn).trans (congrArg _ (afterGather_withImages m0 m1 hbit))

end

/-- Settles O38: which step is enabled reads no image, and of the three only the pixel step reads one, by its hidden bit. -/
theorem onlyHiddenBitsInfluenceDec : Obligations.OnlyHiddenBitsInfluenceDec := by
  intro s t m0 m1 ch sel w h n hp hbits hs
  rw [exec_decRun hp, settle_next_iff] at hs
  refine exec_decRun_ok (s := withImages m0 m1 s) (t := withImages m0 m1 t) hp ?_ _
  obtain ⟨hc, hs⟩ | ⟨hc, he, rfl⟩ | ⟨hc, he, hs⟩ := decStep_ok_cases hs
  · exact (decStep_complete (s := withImages m0 m1 s) hc).trans (decComplete_withImages m0 m1 hs)
  · exact decStep_overrun (s := withImages m0 m1 s) hc he
  · exact (decStep_pixel (s := withImages m0 m1 s) hc he).trans (decPixel_withImages m0 m1 hbits hs)

end Sys2Proof.Machine
end

section
/-!
PROOFS. The host's operations (43_host_interface.md R180 to R187): the start of a command (R181), what is held while one runs (R183), the
status registers and the `idle` output (R184, R187), the accesses to the memories (R185) and `RESET` (R186).
-/

namespace Sys2Proof.Machine

/-! ### `ISSUE` in `IDLE` (R181) -/

theorem issue_of_decode_ok {d : Descriptor} {i : Instr} (h : decode d = .ok i) (s : State) : issue d s = exec i s := by
  rw [issue, h]

/-- Settles O6: in `IDLE` the `ISSUE` is taken, and a descriptor that decodes is `exec` of its command. -/
theorem stepRunsIssuedCommand : Obligations.StepRunsIssuedCommand := by
  intro s d rest i hp hm hd
  calc step s = issue d (setHost rest s) := step_taken hm (.inl hp)
    _ = exec i (setHost rest s) := issue_of_decode_ok hd _

/-- What every start from `s` to `t` leaves alone, whether the command is accepted or refused. -/
structure IssueFrame (s t : State) : Prop where
  img0 : t.img0 = s.img0
  img1 : t.img1 = s.img1
  pay : t.pay = s.pay
  out : t.out = s.out
  caps : t.caps = s.caps
  host : t.host = s.host
  replies : t.replies = s.replies
  len : t.len = 0
  refused : t.phase = .idle → t = { s with code := t.code, len := 0 }

theorem issueFrame_refuse (c : Code) (s : State) : IssueFrame s (refuse c s) :=
  ⟨rfl, rfl, rfl, rfl, rfl, rfl, rfl, rfl, fun _ => rfl⟩

/-- An accepted command runs, so the last clause asks nothing of it. -/
theorem issueFrame_accept {ph : Phase} (hph : ph ≠ .idle) (ch : BitVec 2) (sel : Bit) (w h : BitVec 16) (n : BitVec 32) (s : State) :
    IssueFrame s (accept ph ch sel w h n s) :=
  ⟨rfl, rfl, rfl, rfl, rfl, rfl, rfl, rfl, fun hi => absurd hi hph⟩

theorem start_frame {ph : Phase} (hph : ph ≠ .idle) (fits : Bool) (ch : BitVec 2) (sel : Bit) (w h : BitVec 16) (n : BitVec 32)
    (s : State) : IssueFrame s (start ph fits ch sel w h n s) := by
  obtain ⟨-, he⟩ | ⟨-, -, he⟩ | ⟨-, -, he⟩ := start_cases ph fits ch sel w h n s
  · exact he ▸ issueFrame_refuse _ s
  · exact he ▸ issueFrame_refuse _ s
  · exact he ▸ issueFrame_accept hph ch sel w h n s

theorem exec_idle_frame {s t : State} {i : Instr} (hp : s.phase = .idle) (h : exec i s = .next t) : IssueFrame s t := by
  rw [exec_idle hp] at h
  cases h
  cases i with
  | enc ch sel w hh n => exact start_frame (by decide) ..
  | dec ch sel w hh n => exact start_frame (by decide) ..

/-- Settles O32: in `IDLE` both commands start, and a start refuses or accepts. -/
theorem startFrame : Obligations.StartFrame := by
  intro s t i hp h
  obtain ⟨h0, h1, hpay, hout, hcaps, hhost, hreplies, hlen, hrefused⟩ := exec_idle_frame hp h
  exact ⟨h0, h1, hpay, hout, hcaps, hhost, hreplies, hlen, hrefused⟩

/-! ### The block reads nothing of the host's moves (R183) -/

section
variable {s t : State} (hs : List HostMove)

theorem encPixel_setHost (h : encPixel s = .ok t) : encPixel (setHost hs s) = .ok (setHost hs t) := by
  obtain ⟨p, hi, hp, ⟨hr, pb, hj, hb, rfl⟩ | ⟨hr, rfl⟩⟩ := encPixel_ok_cases h
  · exact encPixel_embed (s := setHost hs s) hi hp hr hj hb
  · exact encPixel_copy (s := setHost hs s) hi hp hr

theorem encStep_setHost (h : encStep s = .ok t) : encStep (setHost hs s) = .ok (setHost hs t) := by
  obtain ⟨he, rfl⟩ | ⟨he, h⟩ := encStep_ok_cases h
  · exact encStep_complete (s := setHost hs s) he
  · exact (encStep_pixel (s := setHost hs s) he).trans (encPixel_setHost hs h)

theorem decComplete_setHost (h : decComplete s = .ok t) : decComplete (setHost hs s) = .ok (setHost hs t) := by
  obtain ⟨hn, rfl⟩ | ⟨hn, ho, rfl⟩ := decComplete_ok_cases h
  · exact decComplete_whole (s := setHost hs s) hn
  · exact decComplete_pad (s := setHost hs s) hn ho

theorem decPixel_setHost (h : decPixel s = .ok t) : decPixel (setHost hs s) = .ok (setHost hs t) := by
  obtain ⟨p, hi, hp, ⟨hn, ho, rfl⟩ | ⟨hn, rfl⟩⟩ := decPixel_ok_cases h
  · exact decPixel_emit (s := setHost hs s) hi hp hn ho
  · exact decPixel_gather (s := setHost hs s) hi hp hn

theorem decStep_setHost (h : decStep s = .ok t) : decStep (setHost hs s) = .ok (setHost hs t) := by
  obtain ⟨hc, h⟩ | ⟨hc, he, rfl⟩ | ⟨hc, he, h⟩ := decStep_ok_cases h
  · exact (decStep_complete (s := setHost hs s) hc).trans (decComplete_setHost hs h)
  · exact decStep_overrun (s := setHost hs s) hc he
  · exact (decStep_pixel (s := setHost hs s) hc he).trans (decPixel_setHost hs h)

theorem blockStep_setHost (h : blockStep s = .next t) : blockStep (setHost hs s) = .next (setHost hs t) := by
  cases hp : s.phase with
  | idle =>
    rw [blockStep_idle hp] at h
    cases h
    exact blockStep_idle (s := setHost hs s) hp
  | encRun =>
    rw [blockStep_encRun hp, settle_next_iff] at h
    exact (blockStep_encRun (s := setHost hs s) hp).trans (settle_next_iff.2 (encStep_setHost hs h))
  | decRun =>
    rw [blockStep_decRun hp, settle_next_iff] at h
    exact (blockStep_decRun (s := setHost hs s) hp).trans (settle_next_iff.2 (decStep_setHost hs h))

end

theorem blockStep_replies {s t : State} (h : blockStep s = .next t) : t.replies = s.replies := by
  cases hp : s.phase with
  | idle => rw [blockStep_idle hp] at h; cases h; rfl
  | encRun => rw [blockStep_encRun hp] at h; exact (encStep_frame (settle_next_iff.1 h)).replies
  | decRun => rw [blockStep_decRun hp] at h; exact (decStep_frame (settle_next_iff.1 h)).replies

/-- Settles O47: the held move leaves the step to the block, which returns nothing to the host and reads none of its moves. -/
theorem busyBlockHoldsTheHost : Obligations.BusyBlockHoldsTheHost := by
  intro s t m rest hb hm hkind hs
  have hheld : heldWhileBusy m = true := by
    rcases hkind with ⟨_, rfl⟩ | ⟨_, _, rfl⟩ | ⟨_, _, rfl⟩ | ⟨_, _, _, rfl⟩ | ⟨_, _, _, rfl⟩ <;> rfl
  have hw : HostWaits s := by simpa [HostWaits, hm] using hheld
  rw [step_hostWaits hb hw] at hs
  refine ⟨(blockStep_host hs).trans hm, blockStep_replies hs, ?_⟩
  calc step (setHost [] s) = blockStep (setHost [] s) := step_alone rfl
    _ = .next (setHost [] t) := blockStep_setHost [] hs

/-! ### The status registers (R26, R184) and the `idle` output (R187) -/

/-- `CODE` stands above `PHASE` and neither reaches the other's bits, so the word is a sum. -/
theorem statusWord0_toNat (s : State) : (statusWord0 s).toNat = s.code.toBits.toNat * 256 + s.phase.toBits.toNat := by
  have hphase : s.phase.toBits.toNat < 2 ^ 8 := s.phase.toBits.isLt.trans (by decide)
  have hcode : s.code.toBits.toNat <<< 8 < 2 ^ 32 := by
    have hlt := s.code.toBits.isLt
    rw [Nat.shiftLeft_eq]
    omega
  rw [statusWord0, BitVec.toNat_or, BitVec.toNat_shiftLeft, BitVec.toNat_setWidth_of_le (by decide),
    BitVec.toNat_setWidth_of_le (by decide), Nat.mod_eq_of_lt hcode, ← Nat.shiftLeft_add_eq_or_of_lt hphase, Nat.shiftLeft_eq]

theorem statusWord_toNat (s : State) (k : Bit) :
    (statusWord s k).toNat = if k = 0 then s.code.toBits.toNat * 256 + s.phase.toBits.toNat else s.len.toNat := by
  unfold statusWord
  split
  · exact statusWord0_toNat s
  · rfl

/-- While a command runs, code and length are 0 (R36), so `SR0` is the phase and `SR1` is 0 (R184). -/
theorem statusWord_toNat_of_running {s : State} (h : RunningInv s) (k : Bit) :
    (statusWord s k).toNat = if k = 0 then s.phase.toBits.toNat else 0 := by
  rw [statusWord_toNat, h.code, h.len]
  simp [Code.toBits]

/-- Settles O43: `RDSR` is never held, and the word it returns is a sum of the two fields. -/
theorem statusRegistersRead : Obligations.StatusRegistersRead := by
  intro s k rest hm
  refine ⟨statusWord s k, ?_, statusWord_toNat s k, fun hinv hb => statusWord_toNat_of_running (hinv.running hb) k⟩
  exact step_taken hm (.inr rfl)

theorem idleOutput_eq_one_iff (s : State) : idleOutput s = 1 ↔ s.phase = .idle := by simp [idleOutput]

theorem idleOutput_eq_zero_iff (s : State) : idleOutput s = 0 ↔ s.phase ≠ .idle := by simp [idleOutput]

theorem Phase.toBits_eq_zero_iff (p : Phase) : p.toBits = 0 ↔ p = .idle := by cases p <;> decide

/-- `SR0[1:0]` is `PHASE` (R26). -/
theorem statusWord0_phase (s : State) : (statusWord0 s).extractLsb' 0 2 = s.phase.toBits := by
  have hlt := s.phase.toBits.isLt
  apply BitVec.eq_of_toNat_eq
  rw [BitVec.extractLsb'_toNat, statusWord0_toNat, Nat.shiftRight_zero]
  omega

/-- Settles O49: the output is defined by the phase, and the phase is what `SR0[1:0]` holds. -/
theorem idleOutputMirrorsPhase : Obligations.IdleOutputMirrorsPhase := by
  refine fun s => ⟨idleOutput_eq_one_iff s, idleOutput_eq_zero_iff s, ?_⟩
  calc idleOutput s = 1 ↔ s.phase = .idle := idleOutput_eq_one_iff s
    _ ↔ s.phase.toBits = 0 := (Phase.toBits_eq_zero_iff s.phase).symm
    _ ↔ (statusWord0 s).extractLsb' 0 2 = 0 := by rw [statusWord0_phase]

/-! ### `RESET` (R186) -/

/-- After `RESET` code, phase and length are 0, and so are the words made of them. -/
theorem statusWord_resetRegisters (s : State) (k : Bit) : statusWord (resetRegisters s) k = 0 := by
  apply BitVec.eq_of_toNat_eq
  rw [statusWord_toNat]
  simp [Code.toBits, Phase.toBits]

/-- Settles O48: `RESET` is never held, and it writes the registers and no memory. -/
theorem resetClearsRegistersOnly : Obligations.ResetClearsRegistersOnly := by
  intro s rest hm
  have hs : step s = .next (resetRegisters (setHost rest s)) := by rw [step_taken hm (.inr rfl), hostStep]
  exact ⟨_, hs, rfl, statusWord_resetRegisters _ 0, statusWord_resetRegisters _ 1⟩

/-! ### `HRD` and `HWR` in `IDLE` (R185) -/

theorem byteCap_setHost (hs : List HostMove) (s : State) (m : ByteSpace) : byteCap (setHost hs s) m = byteCap s m := by
  cases m <;> rfl

theorem setHost_bytes (hs : List HostMove) (s : State) (m : ByteSpace) : (setHost hs s).bytes m = s.bytes m := by
  cases m <;> rfl

theorem hostByte_setHost (hs : List HostMove) (s : State) (m : ByteSpace) (i : Index) :
    hostByte (setHost hs s) m i = hostByte s m i := by
  rw [hostByte, setHost_bytes, hostByte]

section
variable {s : State} {rest : List HostMove} {i : Index}

theorem step_hrdPixel {b : Bit} (hp : s.phase = .idle) (hi : i.toNat < s.caps.imgCap) (hm : s.host = .hrdPixel b i :: rest) :
    step s = .next (reply (.pixel (hostPixel s b i)) (setHost rest s)) :=
  (step_taken hm (.inl hp)).trans (congrArg settle (hostReadPixel_ok (s := setHost rest s) b hi))

theorem step_hwrPixel {b : Bit} {v : Pixel} (hp : s.phase = .idle) (hi : i.toNat < s.caps.imgCap)
    (hm : s.host = .hwrPixel b i v :: rest) :
    step s = .next ((setHost rest s).setBank b (Memory.write (s.bank b) i.toNat v)) :=
  (step_taken hm (.inl hp)).trans (congrArg settle (hostWritePixel_ok (s := setHost rest s) b v hi))

theorem step_hrdByte {m : ByteSpace} (hp : s.phase = .idle) (hi : i.toNat < byteCap s m) (hm : s.host = .hrdByte m i :: rest) :
    step s = .next (reply (.byte (hostByte s m i)) (setHost rest s)) := by
  rw [step_taken hm (.inl hp), hostStep, hostReadByte_ok (by rwa [byteCap_setHost]), hostByte_setHost, settle]

theorem step_hwrByte {m : ByteSpace} {v : Byte} (hp : s.phase = .idle) (hi : i.toNat < byteCap s m)
    (hm : s.host = .hwrByte m i v :: rest) :
    step s = .next ((setHost rest s).setBytes m (Memory.write (s.bytes m) i.toNat v)) := by
  rw [step_taken hm (.inl hp), hostStep, hostWriteByte_ok v (by rwa [byteCap_setHost]), setHost_bytes, settle]

theorem step_hrdPixel_stuck {b : Bit} (hp : s.phase = .idle) (hi : s.caps.imgCap ≤ i.toNat) (hm : s.host = .hrdPixel b i :: rest) :
    step s = .fault (.hostIndexOutOfRange i.toNat) :=
  (step_taken hm (.inl hp)).trans (congrArg settle (hostReadPixel_stuck (s := setHost rest s) b hi))

theorem step_hwrPixel_stuck {b : Bit} {v : Pixel} (hp : s.phase = .idle) (hi : s.caps.imgCap ≤ i.toNat)
    (hm : s.host = .hwrPixel b i v :: rest) : step s = .fault (.hostIndexOutOfRange i.toNat) :=
  (step_taken hm (.inl hp)).trans (congrArg settle (hostWritePixel_stuck (s := setHost rest s) b v hi))

theorem step_hrdByte_stuck {m : ByteSpace} (hp : s.phase = .idle) (hi : byteCap s m ≤ i.toNat) (hm : s.host = .hrdByte m i :: rest) :
    step s = .fault (.hostIndexOutOfRange i.toNat) := by
  rw [step_taken hm (.inl hp), hostStep, hostReadByte_stuck (by rwa [byteCap_setHost]), settle]

theorem step_hwrByte_stuck {m : ByteSpace} {v : Byte} (hp : s.phase = .idle) (hi : byteCap s m ≤ i.toNat)
    (hm : s.host = .hwrByte m i v :: rest) : step s = .fault (.hostIndexOutOfRange i.toNat) := by
  rw [step_taken hm (.inl hp), hostStep, hostWriteByte_stuck v (by rwa [byteCap_setHost]), settle]

end

/-- Settles O44: a read answers the element and a write sets it; the other bank is another memory. -/
theorem hostPixelAccess : Obligations.HostPixelAccess := by
  intro s b i rest hp hi
  refine ⟨fun p hm hread => ?_, fun hm => ⟨_, step_hrdPixel hp hi hm⟩,
    fun v hm => ⟨_, step_hwrPixel hp hi hm, ?_, fun k hk => ?_, ?_, rfl⟩⟩
  · exact hostPixel_written hread ▸ step_hrdPixel hp hi hm
  · rw [State.bank_setBank_same, Memory.read_write_same]
  · rw [State.bank_setBank_same, Memory.read_write_other _ _ _ _ hk]
  · exact State.bank_setBank_other _ _ _ _ (other_bank_ne b).symm

@[simp] theorem State.bytes_setBytes (s : State) (m : ByteSpace) (c : Memory 8) : (s.setBytes m c).bytes m = c := by
  cases m <;> rfl

/-- The accesses to a byte memory, said once for `PAY` and `OUT`. -/
theorem hostByte_access {s : State} {i : Index} (m : ByteSpace) (rest : List HostMove) (hp : s.phase = .idle)
    (hi : i.toNat < byteCap s m) :
    (∀ v, s.host = .hrdByte m i :: rest → Memory.read (s.bytes m) i.toNat = some v →
      step s = .next (reply (.byte v) (setHost rest s))) ∧
    (s.host = .hrdByte m i :: rest → ∃ v, step s = .next (reply (.byte v) (setHost rest s))) ∧
    (∀ v, s.host = .hwrByte m i v :: rest →
      ∃ t, step s = .next t ∧ Memory.read (t.bytes m) i.toNat = some v ∧
        (∀ k, k ≠ i.toNat → Memory.read (t.bytes m) k = Memory.read (s.bytes m) k) ∧
        t = (setHost rest s).setBytes m (t.bytes m)) := by
  refine ⟨fun v hm hread => ?_, fun hm => ⟨_, step_hrdByte hp hi hm⟩,
    fun v hm => ⟨_, step_hwrByte hp hi hm, ?_, fun k hk => ?_, ?_⟩⟩
  · exact hostByte_written hread ▸ step_hrdByte hp hi hm
  · rw [State.bytes_setBytes, Memory.read_write_same]
  · rw [State.bytes_setBytes, Memory.read_write_other _ _ _ _ hk]
  · rw [State.bytes_setBytes]

/-- Settles O45: both byte memories are accessed alike. -/
theorem hostByteAccess : Obligations.HostByteAccess := fun _ _ rest hp =>
  ⟨hostByte_access .pay rest hp, hostByte_access .out rest hp⟩

/-- Settles O46: at or above its capacity no access has a step, whichever the memory. -/
theorem hostAccessOutOfRangeIsStuck : Obligations.HostAccessOutOfRangeIsStuck := by
  intro s b i rest hp
  have hbyte (m : ByteSpace) (hi : byteCap s m ≤ i.toNat) :
      (s.host = .hrdByte m i :: rest → step s = .fault (.hostIndexOutOfRange i.toNat)) ∧
        ∀ v, s.host = .hwrByte m i v :: rest → step s = .fault (.hostIndexOutOfRange i.toNat) :=
    ⟨step_hrdByte_stuck hp hi, fun _ => step_hwrByte_stuck hp hi⟩
  exact ⟨fun hi => ⟨step_hrdPixel_stuck hp hi, fun _ => step_hwrPixel_stuck hp hi⟩, hbyte .pay, hbyte .out⟩

end Sys2Proof.Machine
end

section
/-!
PROOFS. The conditions of the block (60_exceptions.md R200 to R207): a step whose inputs are written never stops (R205, R75),
and each completion code has its raiser (R201 to R204).
-/

namespace Sys2Proof.Machine

/-! ### A step whose inputs are written goes on (R205, R75, R67) -/

/-- The invariant puts the pixel and the payload byte inside their memories, so an `ENC` step stops only where one is unwritten. -/
theorem encStep_goes_on {s : State} (h : Inv s) (hp : s.phase = .encRun)
    (hin : exhausted s = false → Memory.read (s.bank s.rSel) (idx s) ≠ none ∧
      (s.byteIdx.toNat < s.rN.toNat → Memory.read s.pay s.byteIdx.toNat ≠ none)) :
    ∃ t, encStep s = .ok t := by
  have hr := h.running (by simp [hp])
  cases he : exhausted s with
  | true => exact ⟨_, encStep_complete he⟩
  | false =>
    obtain ⟨hpix, hpay⟩ := hin he
    obtain ⟨p, hpix⟩ := Option.ne_none_iff_exists'.1 hpix
    have hi := hr.idx_lt_imgCap he
    rw [encStep_pixel he]
    cases hrem : payloadRemains s with
    | false => exact ⟨_, encPixel_copy hi hpix hrem⟩
    | true =>
      obtain ⟨pb, hpay⟩ := Option.ne_none_iff_exists'.1 (hpay ((payloadRemains_iff s).1 hrem))
      exact ⟨_, encPixel_embed hi hpix hrem ((h.encoding hp).byteIdx_lt_payCap hr he hrem) hpay⟩

/-- Only the pixel step of `DEC` reads; the bytes it and the completion step write are inside `OUT` by the invariant. -/
theorem decStep_goes_on {s : State} (h : Inv s) (hp : s.phase = .decRun)
    (hin : s.bitsRead ≠ s.rN → exhausted s = false → Memory.read (s.bank s.rSel) (idx s) ≠ none) :
    ∃ t, decStep s = .ok t := by
  have hr := h.running (by simp [hp])
  have hd := h.decoding hp
  by_cases hc : s.bitsRead = s.rN
  · exact ⟨_, decStep_normal hr hd hc⟩
  · cases he : exhausted s with
    | true => exact ⟨_, decStep_overrun ((not_countReached_iff s).2 hc) he⟩
    | false =>
      obtain ⟨p, hpix⟩ := Option.ne_none_iff_exists'.1 (hin hc he)
      by_cases hn : s.n = 7
      · exact ⟨_, decStep_emit hr hd hc he hpix hn⟩
      · exact ⟨_, decStep_gather hr hc he hpix hn⟩

/-- Settles O30: a busy `exec` is the block step of the phase, an idle one a start, and neither refuses. -/
theorem blockStepNeverFailsOnWrittenInputs : Obligations.BlockStepNeverFailsOnWrittenInputs := by
  refine ⟨fun s i h hb henc hdec => ?_, fun s i hp => ⟨_, exec_idle hp i⟩, fun s i => exec_ne_refused i s⟩
  cases hp : s.phase with
  | idle => exact absurd hp hb
  | encRun =>
    obtain ⟨t, ht⟩ := encStep_goes_on h hp (henc hp)
    exact ⟨t, (exec_encRun hp i).trans (settle_next_iff.2 ht)⟩
  | decRun =>
    obtain ⟨t, ht⟩ := decStep_goes_on h hp (hdec hp)
    exact ⟨t, exec_decRun_ok hp ht i⟩

/-! ### Who raises which code (R200 to R204) -/

/-- The size check (R182) turns the command of `d` away. -/
def Oversize (d : Descriptor) (c : Caps) : Prop :=
  (fieldOp d = opEnc ∧ encAdmissible (fieldW d) (fieldH d) (fieldN d) c = false) ∨
    (fieldOp d = opDec ∧ decAdmissible (fieldW d) (fieldH d) (fieldN d) c = false)

/-- How a step from `s` to `t` comes to leave the code `c`: it keeps the code it found, it leaves 0, or it is the one raiser of
`c`. -/
inductive CodeRaised (s t : State) (c : Code) : Prop
  | kept (h : c = s.code)
  /-- By an accepting `ISSUE`, a completion that leaves nothing undone, or `RESET`. -/
  | cleared (h : c = .ok)
  /-- R201. -/
  | shortPayload (h : c = .insufficientCapacity) (hp : s.phase = .encRun) (he : exhausted s = true)
      (hr : s.byteIdx.toNat < s.rN.toNat)
  /-- R202. -/
  | shortImage (h : c = .insufficientPixels) (hp : s.phase = .decRun) (he : exhausted s = true) (hc : s.bitsRead ≠ s.rN)
  /-- R203. -/
  | illegal (h : c = .illegalCommand) (hp : s.phase = .idle) (ht : t.phase = .idle) (hlen : t.len = 0) (d : Descriptor)
      (rest : List HostMove) (hm : s.host = .issue d :: rest) (hd : legal d = false)
  /-- R204. -/
  | oversize (h : c = .rangeError) (hp : s.phase = .idle) (ht : t.phase = .idle) (hlen : t.len = 0) (d : Descriptor)
      (rest : List HostMove) (hm : s.host = .issue d :: rest) (hd : legal d = true) (hfit : Oversize d s.caps)

section
variable {s t : State} {hs rest : List HostMove}

/-- An `ENC` step leaves another code only when it completes (R136), whatever the host's moves. -/
theorem encStep_codeRaised (hp : s.phase = .encRun) (h : encStep (setHost hs s) = .ok t) : CodeRaised s t t.code := by
  obtain ⟨he, rfl⟩ | ⟨he, -⟩ := encStep_ok_cases h
  · cases hr : payloadRemains (setHost hs s) with
    | true => exact .shortPayload (by simp [encComplete, hr]) hp he ((payloadRemains_iff _).1 hr)
    | false => exact .cleared (by simp [encComplete, hr])
  · obtain ⟨-, hcode, -⟩ := encStep_pixel_frame h he
    exact .kept hcode

/-- A `DEC` step leaves another code only when it completes (R154, R155), whatever the host's moves. -/
theorem decStep_codeRaised (hp : s.phase = .decRun) (h : decStep (setHost hs s) = .ok t) : CodeRaised s t t.code := by
  obtain ⟨-, h⟩ | ⟨hc, he, rfl⟩ | ⟨hc, he, -⟩ := decStep_ok_cases h
  · obtain ⟨-, rfl⟩ | ⟨-, -, rfl⟩ := decComplete_ok_cases h <;> exact .cleared rfl
  · exact .shortImage rfl hp he ((not_countReached_iff _).1 hc)
  · obtain ⟨-, hcode, -⟩ := decStep_pixel_status h ((not_countReached_iff _).1 hc) he
    exact .kept hcode

theorem blockStep_codeRaised (h : blockStep (setHost hs s) = .next t) : CodeRaised s t t.code := by
  cases hp : s.phase with
  | idle => rw [blockStep_idle (s := setHost hs s) hp] at h; cases h; exact .kept rfl
  | encRun => rw [blockStep_encRun (s := setHost hs s) hp] at h; exact encStep_codeRaised hp (settle_next_iff.1 h)
  | decRun => rw [blockStep_decRun (s := setHost hs s) hp] at h; exact decStep_codeRaised hp (settle_next_iff.1 h)

/-- The start of a legal command clears the code, or refuses the command for its size (R181). -/
theorem start_codeRaised {d : Descriptor} {ph : Phase} {fits : Bool} {ch : BitVec 2} {sel : Bit} {w h : BitVec 16} {n : BitVec 32}
    (hp : s.phase = .idle) (hm : s.host = .issue d :: rest) (hd : legal d = true) (hch : ch ≠ 3)
    (hfit : fits = false → Oversize d s.caps) (ht : start ph fits ch sel w h n (setHost rest s) = t) : CodeRaised s t t.code := by
  subst ht
  obtain ⟨hc, -⟩ | ⟨-, hf, he⟩ | ⟨-, -, he⟩ := start_cases ph fits ch sel w h n (setHost rest s)
  · exact absurd hc hch
  · rw [he]
    exact .oversize rfl hp hp rfl d rest hm hd (hfit hf)
  · rw [he]
    exact .cleared rfl

/-- `ISSUE` refuses a descriptor that is not legal, and starts or refuses any other (R181). -/
theorem issue_codeRaised {d : Descriptor} (hp : s.phase = .idle) (hm : s.host = .issue d :: rest)
    (h : issue d (setHost rest s) = .next t) : CodeRaised s t t.code := by
  cases hd : decode d with
  | error e =>
    rw [issue_of_decode_error hd] at h
    cases h
    exact .illegal rfl hp hp rfl d rest hm (not_legal_of_decode_error hd)
  | ok i =>
    rw [issue_of_decode_ok hd, exec_idle (s := setHost rest s) hp, Host.Outcome.next.injEq] at h
    obtain ⟨-, hch, ⟨ho, rfl⟩ | ⟨ho, rfl⟩⟩ := decode_ok_cases hd
    · exact start_codeRaised hp hm (legal_of_decode_ok hd) hch (fun hf => .inl ⟨ho, hf⟩) h
    · exact start_codeRaised hp hm (legal_of_decode_ok hd) hch (fun hf => .inr ⟨ho, hf⟩) h

@[simp] theorem setBytes_code (s : State) (b : ByteSpace) (m : Memory 8) : (s.setBytes b m).code = s.code := by
  cases b <;> rfl

/-- Of the host's moves only `ISSUE` raises a code, `RESET` clears it, and `pass` gives the block its step. -/
theorem hostStep_codeRaised {m : HostMove} (hm : s.host = m :: rest) (hheld : s.phase = .idle ∨ heldWhileBusy m = false)
    (h : hostStep m (setHost rest s) = .next t) : CodeRaised s t t.code := by
  cases m with
  | pass => exact blockStep_codeRaised ((blockTurn_eq (setHost rest s)).symm.trans h)
  | issue d => exact issue_codeRaised (hheld.resolve_right (by simp [heldWhileBusy])) hm h
  | rdsr k => cases h; exact .kept rfl
  | hrdPixel b i =>
    obtain ⟨-, rfl⟩ := hostReadPixel_ok_iff.1 (settle_next_iff.1 h)
    exact .kept rfl
  | hrdByte sp i =>
    obtain ⟨-, rfl⟩ := hostReadByte_ok_iff.1 (settle_next_iff.1 h)
    exact .kept rfl
  | hwrPixel b i v =>
    obtain ⟨-, rfl⟩ := hostWritePixel_ok_iff.1 (settle_next_iff.1 h)
    exact .kept rfl
  | hwrByte sp i v =>
    obtain ⟨-, rfl⟩ := hostWriteByte_ok_iff.1 (settle_next_iff.1 h)
    exact .kept (by simp)
  | reset => cases h; exact .cleared rfl

theorem step_codeRaised (h : step s = .next t) : CodeRaised s t t.code := by
  obtain ⟨-, -, he⟩ | ⟨m, rest, hm, hheld, he⟩ := step_cases s
  · exact blockStep_codeRaised (hs := s.host) (he ▸ h)
  · exact hostStep_codeRaised hm hheld (he ▸ h)

end

/-- Settles O37: a step that does not keep the code leaves 0 or is the one raiser of the code it leaves. -/
theorem codesHaveTheirRaisers : Obligations.CodesHaveTheirRaisers := by
  intro s t h hne
  cases step_codeRaised h with
  | kept hc => exact absurd hc hne
  | cleared hc => simp [hc]
  | shortPayload hc hp he hr => simp [hc, hp, he, hr]
  | shortImage hc hp he hb => simp [hc, hp, he, hb]
  | illegal hc hp ht hlen d rest hm hd => simp [hc, hp, ht, hlen, hm, hd]
  | oversize hc hp ht hlen d rest hm hd hfit =>
    simp only [hc, reduceCtorEq, false_imp_iff, true_and]
    exact fun _ => ⟨hp, ht, hlen, d, rest, hm, hd, hfit⟩

end Sys2Proof.Machine
end

section
/-!
PROOFS. Reset and the length of a command (70_reset_and_hazards.md): the power-on state (R233), `RESET` while a command runs (R232), and
the number of block steps a command takes (R238).
-/

namespace Sys2Proof.Machine

/-! ### `RESET` at power-on and in mid-command (R232, R233) -/

/-- `RESET` is never held: the step is taken whether or not a command runs (R186). -/
theorem step_reset {s : State} {rest : List HostMove} (hm : s.host = .reset :: rest) :
    step s = .next (resetRegisters (setHost rest s)) :=
  step_taken hm (.inr rfl)

/-- Settles O27: at power-on the registers already have the values `RESET` gives them, and no memory lists an element. -/
theorem powerOnState : Obligations.PowerOnState :=
  ⟨step_reset rfl, rfl, rfl, rfl, fun _ => ⟨rfl, rfl, rfl, rfl⟩⟩

/-- Settles O24: after `k` pixel steps the destination holds the closed form's first `k` pixels, or its whole bytes, and `RESET`
changes no memory. -/
theorem midCommandResetKeepsPrefix : Obligations.MidCommandResetKeepsPrefix := by
  constructor
  · intro s ch sel w h n S Y k hp hh hc himg hpay hS hY hk
    obtain ⟨t, hrun, ht⟩ := (encProgress_accept S Y ch sel hh himg hpay).run hS hY hk
    exact ⟨_, t, _, exec_enc_starts sel hp hc himg hpay, hrun, ht.phase, step_reset rfl, rfl, rfl, rfl, ht.written, ht.beyond,
      ht.source, ht.pay, ht.out⟩
  · intro s ch sel w h n S k hp hh hc himg hout hS hk
    obtain ⟨t, hrun, ht⟩ := (decProgress_accept S ch sel hh himg hout).run hS hk
    exact ⟨_, t, _, exec_dec_starts sel hp hc himg hout, hrun, ht.phase, step_reset rfl, rfl, rfl, rfl, rfl, rfl, ht.held.written,
      ht.held.beyond, ht.img0, ht.img1, ht.pay⟩

/-! ### The block steps a command still takes (R238) -/

section
variable {s : State}

theorem stepsLeft_idle (hp : s.phase = .idle) : stepsLeft s = 0 := by simp only [stepsLeft, hp]

theorem stepsLeft_encRun (hp : s.phase = .encRun) : stepsLeft s = npix s.rW s.rH - pixelsDone s + 1 := by
  simp only [stepsLeft, hp]

theorem stepsLeft_decRun (hp : s.phase = .decRun) :
    stepsLeft s = min s.rN.toNat (npix s.rW s.rH) - s.bitsRead.toNat + 1 := by
  simp only [stepsLeft, hp]

theorem stepsLeft_eq_zero_iff : stepsLeft s = 0 ↔ s.phase = .idle := by
  cases hp : s.phase with
  | idle => simp [stepsLeft_idle hp]
  | encRun => simp [stepsLeft_encRun hp]
  | decRun => simp [stepsLeft_decRun hp]

/-- Two 16-bit sides bound the grid. -/
theorem npix_le (w h : BitVec 16) : npix w h ≤ 65535 * 65535 :=
  Nat.mul_le_mul (Nat.le_of_lt_succ w.isLt) (Nat.le_of_lt_succ h.isLt)

theorem stepsLeft_le (s : State) : stepsLeft s ≤ 65535 * 65535 + 1 := by
  have hgrid := npix_le s.rW s.rH
  cases hp : s.phase with
  | idle => rw [stepsLeft_idle hp]; omega
  | encRun => rw [stepsLeft_encRun hp]; omega
  | decRun => rw [stepsLeft_decRun hp]; omega

end

section
variable {s t : State}

/-- A pixel step takes one of the pixels left; with none left the completion step is the last. -/
theorem encStep_lowers_stepsLeft (h : Inv s) (hp : s.phase = .encRun) (hs : encStep s = .ok t) :
    stepsLeft t + 1 = stepsLeft s := by
  rw [stepsLeft_encRun hp]
  obtain ⟨he, rfl⟩ | ⟨he, hpix⟩ := encStep_ok_cases hs
  · rw [stepsLeft_idle rfl, pixelsDone_of_exhausted he, Nat.sub_self]
  · obtain ⟨hrun, -, hdone⟩ := encPixel_keeps_run (h.running (by simp [hp])) (h.encoding hp) he hpix
    have hops := (encStep_frame hs).operands
    have hle := hrun.pixelsDone_le_npix
    rw [hops.rW, hops.rH] at hle
    rw [stepsLeft_encRun ((encStep_pixel_frame hs he).1.trans hp), hops.rW, hops.rH]
    omega

theorem decPixel_bitsRead (h : decPixel s = .ok t) : t.bitsRead = s.bitsRead + 1 := by
  obtain ⟨p, -, -, ⟨-, -, rfl⟩ | ⟨-, rfl⟩⟩ := decPixel_ok_cases h
  · rfl
  · rfl

theorem decComplete_phase (h : decComplete s = .ok t) : t.phase = .idle := by
  obtain ⟨-, rfl⟩ | ⟨-, -, rfl⟩ := decComplete_ok_cases h
  · rfl
  · rfl

/-- A pixel step reads one of the bits left; with none wanted, or no pixel left, the completion step is the last. -/
theorem decStep_lowers_stepsLeft (h : Inv s) (hp : s.phase = .decRun) (hs : decStep s = .ok t) :
    stepsLeft t + 1 = stepsLeft s := by
  have hd := h.decoding hp
  have hread := hd.bitsRead
  rw [stepsLeft_decRun hp]
  obtain ⟨hc, hdone⟩ | ⟨-, he, rfl⟩ | ⟨hc, he, hpix⟩ := decStep_ok_cases hs
  · rw [stepsLeft_idle (decComplete_phase hdone), (countReached_iff s).1 hc]
    omega
  · rw [pixelsDone_of_exhausted he] at hread
    rw [stepsLeft_idle rfl]
    omega
  · have hc := (not_countReached_iff s).1 hc
    have hidx := (h.running (by simp [hp])).idx_lt_npix he
    obtain ⟨hsucc, hlt⟩ := hd.bitsRead_succ hc
    have hops := (decStep_frame hs).operands
    rw [pixelsDone_of_not_exhausted he] at hread
    rw [stepsLeft_decRun ((decStep_pixel_status hs hc he).1.trans hp), hops.rN, hops.rW, hops.rH, decPixel_bitsRead hpix, hsucc]
    omega

theorem blockStep_lowers_stepsLeft (h : Inv s) (hb : s.phase ≠ .idle) (hs : blockStep s = .next t) :
    stepsLeft t + 1 = stepsLeft s := by
  cases hp : s.phase with
  | idle => exact absurd hp hb
  | encRun => rw [blockStep_encRun hp] at hs; exact encStep_lowers_stepsLeft h hp (settle_next_iff.1 hs)
  | decRun => rw [blockStep_decRun hp] at hs; exact decStep_lowers_stepsLeft h hp (settle_next_iff.1 hs)

end

section
variable {s t : State} {ch : BitVec 2} {sel : Bit} {w h : BitVec 16} {n : BitVec 32}

/-- A refused command does not run. -/
theorem eq_accept_of_start_busy {ph : Phase} {fits : Bool} (hp : s.phase = .idle) (hs : start ph fits ch sel w h n s = t)
    (hb : t.phase ≠ .idle) : t = accept ph ch sel w h n s := by
  obtain ⟨-, he⟩ | ⟨-, -, he⟩ | ⟨-, -, he⟩ := start_cases ph fits ch sel w h n s
  · rw [← hs, he] at hb
    exact absurd hp hb
  · rw [← hs, he] at hb
    exact absurd hp hb
  · exact hs.symm.trans he

theorem stepsLeft_of_enc_started (hp : s.phase = .idle) (hs : exec (.enc ch sel w h n) s = .next t) (hb : t.phase ≠ .idle) :
    stepsLeft t = npix w h + 1 := by
  rw [exec_idle hp, Host.Outcome.next.injEq] at hs
  rw [eq_accept_of_start_busy hp hs hb, stepsLeft_encRun rfl, pixelsDone_origin rfl rfl]
  rfl

theorem stepsLeft_of_dec_started (hp : s.phase = .idle) (hs : exec (.dec ch sel w h n) s = .next t) (hb : t.phase ≠ .idle) :
    stepsLeft t = min n.toNat (npix w h) + 1 := by
  rw [exec_idle hp, Host.Outcome.next.injEq] at hs
  rw [eq_accept_of_start_busy hp hs hb, stepsLeft_decRun rfl]
  rfl

end

/-- Settles O25: every block step takes one of the pixels left or is the last, and a started command has all of its pixels left. -/
theorem commandEndsAfterStatedSteps : Obligations.CommandEndsAfterStatedSteps := by
  refine ⟨fun s t h hb hw hs => ?_, fun _ => stepsLeft_eq_zero_iff, fun s t ch sel w h n hp => ⟨?_, fun hs hb => ?_⟩, stepsLeft_le⟩
  · exact blockStep_lowers_stepsLeft h hb (step_hostWaits hb hw ▸ hs)
  · exact stepsLeft_of_enc_started hp
  · rw [stepsLeft_of_dec_started hp hs hb, npix_eq, Nat.min_def]

end Sys2Proof.Machine
end

section
/-!
PROOFS. A placed descriptor is at the command port in `IDLE`, so the next step is its `ISSUE` (log entry 5; 43_host_interface.md R181).
-/

namespace Sys2Proof.Machine

/-- The host's word names a command exactly when the decoder takes its descriptor (30_encoding.md R96). -/
theorem decodeTableWord_eq_some_iff {nbits w : Nat} {i : Instr} :
    decodeTableWord nbits w = some i ↔ decode (tableDescriptor nbits w) = .ok i := by
  unfold decodeTableWord
  cases decode (tableDescriptor nbits w) <;> simp

/-- Once the descriptor is taken, placing it has only put the block in `IDLE`. -/
theorem withFetchWord_taken (s : State) (nbits w : Nat) :
    { s.withFetchWord nbits w with host := s.host } = { s with phase := .idle } := rfl

/-- Settles O8: the placed descriptor is the one at the command port in `IDLE`, which StepRunsIssuedCommand speaks of. -/
theorem fetchWordIsRunNext : Obligations.FetchWordIsRunNext := by
  intro s nbits w i h
  have hd := decodeTableWord_eq_some_iff.1 h
  rw [stepRunsIssuedCommand (s.withFetchWord nbits w) (tableDescriptor nbits w) s.host i rfl rfl hd, withFetchWord_taken]

end Sys2Proof.Machine
end
